-- ==== Sys2Proof/Word.lean ====
section
/-! DEFINITION. The word types of PMB-CORE (R7, R63): bytes of a frame, 16-bit register words, 32-bit bus words. -/

namespace Sys2Proof

/-- One byte of a frame (R7: unit_id, function_code and the byte count are 8 bits wide). -/
abbrev Byte := BitVec 8

/-- One register word (R7: 16 bits, unsigned). -/
abbrev Half := BitVec 16

/-- One word of the host bus (R63), also the width of a binary32 value (R7). -/
abbrev Word := BitVec 32

end Sys2Proof
end

