-- ==== Sys2Proof/Config.lean ====
section
/-! DEFINITION. What the platform fixes and what the spec leaves open: constants with no body, so that nothing can be
proved about the value of one (R8, R226; notes/assumptions 1, 3).

LATENCY, the other OPEN parameter of R8, is no constant here: it is the place of the engine's turn in
`State.sched` (notes/assumptions 2). -/

namespace Sys2Proof

/-- BASE, the host address of the register window: an OPEN parameter of the platform (R7, R61). DESIGN CHOICE (log 1):
a constant without a value. -/
opaque Config.base : Nat

/-! The draws of R226: the value of a location that the spec leaves unspecified at reset. The first argument is the
number of resets before this one, so that two resets draw independently. DESIGN CHOICE (log 3). -/

/-- FB[a] after reset number `epoch`, until the host writes it (R22, 93_implementation_defined.md U1). -/
opaque Config.fbDraw (epoch a : Nat) : Byte

/-- UT[u].DEVICE_ID after reset number `epoch` (R40, U2). -/
opaque Config.deviceDraw (epoch u : Nat) : Byte

/-- MT_KEY[k].MT_UNIT after reset number `epoch` (R41, U3). -/
opaque Config.mtUnitDraw (epoch k : Nat) : Byte

/-- MT_KEY[k].MT_FUNC after reset number `epoch` (R41, U3). -/
opaque Config.mtFuncDraw (epoch k : Nat) : Byte

/-- MT_LIST[k].DEF_BASE after reset number `epoch` (R42, U3). -/
opaque Config.mtBaseDraw (epoch k : Nat) : Byte

/-- MT_LIST[k].DEF_COUNT after reset number `epoch` (R42, U3). -/
opaque Config.mtCountDraw (epoch k : Nat) : BitVec 9

/-- DEF_LO[j] after reset number `epoch` (R43, U4). -/
opaque Config.defLoDraw (epoch j : Nat) : Word

/-- DEF_HI[j] after reset number `epoch` (R43, U4). -/
opaque Config.defHiDraw (epoch j : Nat) : Word

end Sys2Proof
end

