-- ==== Sys2Proof/Syntax.lean ====
section
/-! DEFINITION. The instructions of PMB-CORE: one constructor per row of spec/opcode_table.json. The rows of format CMD
are the commands that a write to CMD starts (R88, R89); the rows of format DEF are the operations that one entry of the
definition memory names (R91 to R94, R108). -/

namespace Sys2Proof

/-- The two encoded formats that carry an operation (R85): CMD is one word, DEF two words (DEF_LO, DEF_HI). -/
inductive Format where
  | command
  | definition
deriving DecidableEq, Repr

/-- What every definition carries beside its DTYPE and WO (R91, R92). The reserved bits are kept, because DM stores them
(R43, R48), although every operation ignores them (R107). -/
structure DefOperands where
  /-- DEF_LO[7:0], INDEX. -/
  index : Byte
  /-- DEF_LO[15:8], SLOT. -/
  slot : Byte
  /-- DEF_LO[28:24], S. -/
  shift : BitVec 5
  /-- DEF_LO[23:21], reserved. -/
  rsvLow : BitVec 3
  /-- DEF_LO[31:29], reserved. -/
  rsvHigh : BitVec 3
  /-- DEF_HI: M in its low half for the integer datatypes, FSCALE for float32. -/
  hi : Word
deriving DecidableEq, Repr

/-- The rows of the opcode table. -/
inductive Instr where
  /-- NOP, opcode 0x00 (R114). -/
  | nop
  /-- DECODE, opcode 0x01 (R126). -/
  | decode
  /-- MAP, opcode 0x02 (R146). -/
  | map
  /-- DECMAP, opcode 0x03 (R162). -/
  | decmap
  /-- F32, opcode 0x04 (R179). -/
  | f32
  /-- SCALE, opcode 0x05 (R195). -/
  | scale
  /-- FMUL, opcode 0x06 (R189). -/
  | fmul
  /-- The reserved opcode 0x07 (R115). -/
  | reserved07
  /-- The reserved opcodes 0x08 to 0x0F (R115). -/
  | reserved08 (op : Byte)
  /-- The reserved opcodes 0x10 to 0x1F (R115). -/
  | reserved10 (op : Byte)
  /-- The reserved opcodes 0x20 to 0x3F (R115). -/
  | reserved20 (op : Byte)
  /-- The reserved opcodes 0x40 to 0x7F (R115). -/
  | reserved40 (op : Byte)
  /-- The reserved opcodes 0x80 to 0xFF (R115). -/
  | reserved80 (op : Byte)
  /-- DTYPE 00 (R154); WO is ignored. -/
  | u16 (wo : BitVec 3) (d : DefOperands)
  /-- DTYPE 01 with WO 000 (R155, R172). -/
  | f32Abcd (d : DefOperands)
  /-- DTYPE 01 with WO 001 (R155, R173). -/
  | f32Badc (d : DefOperands)
  /-- DTYPE 01 with WO 010 (R155, R174). -/
  | f32Cdab (d : DefOperands)
  /-- DTYPE 01 with WO 011 (R155, R175). -/
  | f32Dcba (d : DefOperands)
  /-- DTYPE 01 with WO 100 to 111, read as ABCD (R176). -/
  | f32Reserved (wo : BitVec 3) (d : DefOperands)
  /-- DTYPE 10 or 11 (R157); WO is ignored. -/
  | raw (dtype : BitVec 2) (wo : BitVec 3) (d : DefOperands)
deriving DecidableEq, Repr

/-- The format a row belongs to. -/
def Instr.format : Instr → Format
  | .nop | .decode | .map | .decmap | .f32 | .scale | .fmul => .command
  | .reserved07 | .reserved08 _ | .reserved10 _ | .reserved20 _ | .reserved40 _ | .reserved80 _ => .command
  | .u16 _ _ | .f32Abcd _ | .f32Badc _ | .f32Cdab _ | .f32Dcba _ | .f32Reserved _ _ | .raw _ _ _ => .definition

end Sys2Proof
end

