-- ==== Sys2Proof/WellFormed.lean ====
section
/-! DEFINITION. Which terms of `Instr` an encoding can stand for: an opcode, a word order or a datatype kept as an operand
lies in the range of its row of the opcode table (R89, R93, R94). -/

namespace Sys2Proof

/-- The range check of each row; every other operand fills its field. -/
def Instr.wf : Instr → Bool
  | .nop | .decode | .map | .decmap | .f32 | .scale | .fmul | .reserved07 => true
  | .reserved08 op => op &&& 0xF8#8 == 0x08#8
  | .reserved10 op => op &&& 0xF0#8 == 0x10#8
  | .reserved20 op => op &&& 0xE0#8 == 0x20#8
  | .reserved40 op => op &&& 0xC0#8 == 0x40#8
  | .reserved80 op => op &&& 0x80#8 == 0x80#8
  | .u16 _ _ | .f32Abcd _ | .f32Badc _ | .f32Cdab _ | .f32Dcba _ => true
  | .f32Reserved wo _ => wo.getLsbD 2
  | .raw dtype _ _ => dtype.getLsbD 1

end Sys2Proof
end

