-- ==== Sys2Proof/Decode.lean ====
section
/-! DEFINITION. Decoding CMD and DEF words, total on any list of words, and the encoder written from the same tables
(R88, R89, R91 to R94, R108). PMB-CORE stores 32-bit words, not bytes, in CMD and DM (R63, R72), so the decoder reads words. -/

namespace Sys2Proof

/-- Why a list of words is no instruction. Every full word (CMD) and every pair of words (DEF) is one (R89, R108), so the
only reason is that words are missing. -/
inductive DecodeError where
  /-- A CMD word was wanted and no word was given. -/
  | truncatedCommand
  /-- DEF_LO and DEF_HI were wanted and fewer than two words were given. -/
  | truncatedDefinition
deriving DecidableEq, Repr

/-- The command of an opcode (R89); 0x07 and up are reserved (R90). -/
def decodeOpcode (op : Byte) : Instr :=
  if op = 0x00#8 then .nop
  else if op = 0x01#8 then .decode
  else if op = 0x02#8 then .map
  else if op = 0x03#8 then .decmap
  else if op = 0x04#8 then .f32
  else if op = 0x05#8 then .scale
  else if op = 0x06#8 then .fmul
  else if op = 0x07#8 then .reserved07
  else if op &&& 0xF8#8 = 0x08#8 then .reserved08 op
  else if op &&& 0xF0#8 = 0x10#8 then .reserved10 op
  else if op &&& 0xE0#8 = 0x20#8 then .reserved20 op
  else if op &&& 0xC0#8 = 0x40#8 then .reserved40 op
  else .reserved80 op

/-- CMD[7:0] selects the command and CMD[31:8] is ignored (R88). -/
def decodeCommand (v : Word) : Instr := decodeOpcode (v.extractLsb' 0 8)

/-- The operand fields of a definition (R91, R92). -/
def decodeOperands (lo hi : Word) : DefOperands where
  index := lo.extractLsb' 0 8
  slot := lo.extractLsb' 8 8
  shift := lo.extractLsb' 24 5
  rsvLow := lo.extractLsb' 21 3
  rsvHigh := lo.extractLsb' 29 3
  hi := hi

/-- DTYPE (DEF_LO[17:16]) and, for float32, WO (DEF_LO[20:18]) select the operation; every 64-bit value names exactly one
(R93, R94, R108). -/
def decodeDefinition (lo hi : Word) : Instr :=
  let dtype := lo.extractLsb' 16 2
  let wo := lo.extractLsb' 18 3
  let d := decodeOperands lo hi
  if dtype = 0b00#2 then .u16 wo d
  else if dtype = 0b01#2 then
    if wo = 0b000#3 then .f32Abcd d
    else if wo = 0b001#3 then .f32Badc d
    else if wo = 0b010#3 then .f32Cdab d
    else if wo = 0b011#3 then .f32Dcba d
    else .f32Reserved wo d
  else .raw dtype wo d

/-- Read one instruction of the given format and return it with the words after it. -/
def decode : Format → List Word → Except DecodeError (Instr × List Word)
  | .command, v :: rest => .ok (decodeCommand v, rest)
  | .command, [] => .error .truncatedCommand
  | .definition, lo :: hi :: rest => .ok (decodeDefinition lo hi, rest)
  | .definition, _ => .error .truncatedDefinition

/-- The CMD word of an opcode; the ignored bits are written 0 (R88). -/
def commandWord (op : Byte) : Word := 0#24 ++ op

/-- The DEF_LO word of R91, from its most to its least significant field. -/
def defLoWord (dtype : BitVec 2) (wo : BitVec 3) (d : DefOperands) : Word :=
  d.rsvHigh ++ d.shift ++ d.rsvLow ++ wo ++ dtype ++ d.slot ++ d.index

/-- DEF_LO and DEF_HI of a definition (R91, R92). -/
def defWords (dtype : BitVec 2) (wo : BitVec 3) (d : DefOperands) : List Word :=
  [defLoWord dtype wo d, d.hi]

/-- The words of a well-formed instruction (R89, R93, R94). -/
def encode : Instr → List Word
  | .nop => [commandWord 0x00#8]
  | .decode => [commandWord 0x01#8]
  | .map => [commandWord 0x02#8]
  | .decmap => [commandWord 0x03#8]
  | .f32 => [commandWord 0x04#8]
  | .scale => [commandWord 0x05#8]
  | .fmul => [commandWord 0x06#8]
  | .reserved07 => [commandWord 0x07#8]
  | .reserved08 op => [commandWord op]
  | .reserved10 op => [commandWord op]
  | .reserved20 op => [commandWord op]
  | .reserved40 op => [commandWord op]
  | .reserved80 op => [commandWord op]
  | .u16 wo d => defWords 0b00#2 wo d
  | .f32Abcd d => defWords 0b01#2 0b000#3 d
  | .f32Badc d => defWords 0b01#2 0b001#3 d
  | .f32Cdab d => defWords 0b01#2 0b010#3 d
  | .f32Dcba d => defWords 0b01#2 0b011#3 d
  | .f32Reserved wo d => defWords 0b01#2 wo d
  | .raw dtype wo d => defWords dtype wo d

/-- One row of spec/opcode_table.json: an instruction of its format is one whose first word, under the mask, is the
pattern. -/
structure OpcodeRow where
  mnemonic : String
  format : Format
  mask : Word
  pattern : Word
deriving DecidableEq, Repr

/-- The CMD rows of the opcode table (R89). -/
def commandRows : List OpcodeRow :=
  [⟨"NOP", .command, 0xFF, 0x00⟩, ⟨"DECODE", .command, 0xFF, 0x01⟩, ⟨"MAP", .command, 0xFF, 0x02⟩,
   ⟨"DECMAP", .command, 0xFF, 0x03⟩, ⟨"F32", .command, 0xFF, 0x04⟩, ⟨"SCALE", .command, 0xFF, 0x05⟩,
   ⟨"FMUL", .command, 0xFF, 0x06⟩, ⟨"RESERVED__BAD_CMD__0x07-0x07", .command, 0xFF, 0x07⟩,
   ⟨"RESERVED__BAD_CMD__0x08-0x0F", .command, 0xF8, 0x08⟩, ⟨"RESERVED__BAD_CMD__0x10-0x1F", .command, 0xF0, 0x10⟩,
   ⟨"RESERVED__BAD_CMD__0x20-0x3F", .command, 0xE0, 0x20⟩, ⟨"RESERVED__BAD_CMD__0x40-0x7F", .command, 0xC0, 0x40⟩,
   ⟨"RESERVED__BAD_CMD__0x80-0xFF", .command, 0x80, 0x80⟩]

/-- The DEF rows of the opcode table, over DEF_LO (R93, R94). -/
def definitionRows : List OpcodeRow :=
  [⟨"U16", .definition, 0x00030000, 0x00000000⟩, ⟨"F32.ABCD", .definition, 0x001F0000, 0x00010000⟩,
   ⟨"F32.BADC", .definition, 0x001F0000, 0x00050000⟩, ⟨"F32.CDAB", .definition, 0x001F0000, 0x00090000⟩,
   ⟨"F32.DCBA", .definition, 0x001F0000, 0x000D0000⟩,
   ⟨"F32.RESERVED_WO__as_ABCD", .definition, 0x00130000, 0x00110000⟩, ⟨"RAW", .definition, 0x00020000, 0x00020000⟩]

/-- The rows of a format. -/
def Format.rows : Format → List OpcodeRow
  | .command => commandRows
  | .definition => definitionRows

/-- Whether a first word belongs to a row. -/
def OpcodeRow.holds (r : OpcodeRow) (v : Word) : Bool := v &&& r.mask == r.pattern

/-- The mnemonic of an instruction's row, as the opcode table spells it. -/
def Instr.mnemonic : Instr → String
  | .nop => "NOP"
  | .decode => "DECODE"
  | .map => "MAP"
  | .decmap => "DECMAP"
  | .f32 => "F32"
  | .scale => "SCALE"
  | .fmul => "FMUL"
  | .reserved07 => "RESERVED__BAD_CMD__0x07-0x07"
  | .reserved08 _ => "RESERVED__BAD_CMD__0x08-0x0F"
  | .reserved10 _ => "RESERVED__BAD_CMD__0x10-0x1F"
  | .reserved20 _ => "RESERVED__BAD_CMD__0x20-0x3F"
  | .reserved40 _ => "RESERVED__BAD_CMD__0x40-0x7F"
  | .reserved80 _ => "RESERVED__BAD_CMD__0x80-0xFF"
  | .u16 _ _ => "U16"
  | .f32Abcd _ => "F32.ABCD"
  | .f32Badc _ => "F32.BADC"
  | .f32Cdab _ => "F32.CDAB"
  | .f32Dcba _ => "F32.DCBA"
  | .f32Reserved _ _ => "F32.RESERVED_WO__as_ABCD"
  | .raw _ _ _ => "RAW"

/-- Whether the opcode table gives a row this format's width: a CMD row fixes bits of CMD[7:0] alone and so is one byte
wide, a DEF row fixes bits 16 and up of DEF_LO and so is three or four bytes wide. DESIGN CHOICE (log 5): the
two formats share bit patterns, so the width is what tells them apart here. -/
def formatOfWidth (nbits : Nat) : Format := if nbits ≤ 16 then .command else .definition

/-- The words of a table word `w`: bit 0 is the least significant bit of the first word, and DEF_HI follows DEF_LO. -/
def tableWords (nbits w : Nat) : List Word :=
  match formatOfWidth nbits with
  | .command => [BitVec.ofNat 32 w]
  | .definition => [BitVec.ofNat 32 w, BitVec.ofNat 32 (w / 2 ^ 32)]

/-- The instruction the decoder reads from a row's word. -/
def decodeTableWord (nbits w : Nat) : Option Instr :=
  match decode (formatOfWidth nbits) (tableWords nbits w) with
  | .ok (i, _) => some i
  | .error _ => none

end Sys2Proof
end

