-- ==== Sys2Proof/Machine/State.lean ====
section
/-! DEFINITION. The state of PMB-CORE, grouped as R20 groups it, and the state right after reset (R225). Every register is
held as the fields the spec names, so a bit that the spec says reads 0 is not stored; the words that the host reads are
put together in Machine/Flags.lean. -/

namespace Sys2Proof.Machine

/-- Why the machine stops with a fault. There is no constructor: "No item of PMB-CORE has one of these; every case has a
defined result" (93_implementation_defined.md, R113, R200). Safe: nothing raises one. -/
inductive Fault
deriving DecidableEq, Repr

/-- Why an instruction has no meaning. -/
inductive Refusal where
  /-- Raised by an arm of `exec` whose instruction is not modelled yet; safe. Every instruction has its meaning, so no arm
  raises it. -/
  | notModelled (mnemonic : String)
deriving DecidableEq, Repr

/-- The error of the last completed command (R102, R201); the codes 7 to 15 are never produced and have no constructor. -/
inductive ErrCode where
  | ok
  | frameTooShort
  | oddByteCount
  | dataShort
  | noFrame
  | cfgErr
  | badCmd
deriving DecidableEq, Repr

/-- The kind of value in a slot (R30, R103); TAG code 3 is never produced and has no constructor. -/
inductive Tag where
  | int
  | f32
  | raw
deriving DecidableEq, Repr

/-- ENG_STATE (R45, R111). -/
inductive EngState where
  | idle
  | busy
deriving DecidableEq, Repr

/-- The frame buffer's bytes: the pairs of address and byte that the host has written since reset, addresses strictly
rising. An unlisted address has no value (R226); reading it gives a draw. -/
abbrev Memory := List Host.Cell

/-- The input state that the host writes (R20). CMD holds nothing beyond ENG_OP (R39). -/
structure Inputs where
  /-- FLEN[8:0] (R21). -/
  flen : BitVec 9
  /-- FB (R22). -/
  fb : Memory
  /-- ARG0 (R23). -/
  arg0 : Word
  /-- ARG1 (R23). -/
  arg1 : Word
  /-- ARG2 (R23). -/
  arg2 : Word
deriving DecidableEq, Repr

/-- One entry of the unit table (R40). -/
structure UnitEntry where
  /-- U_VALID. -/
  valid : Bool
  /-- DEVICE_ID. -/
  deviceId : Byte
deriving DecidableEq, Repr

/-- One entry of the function table: MT_KEY (R41) and MT_LIST (R42). -/
structure FuncEntry where
  /-- MT_VALID. -/
  valid : Bool
  /-- MT_UNIT. -/
  unit : Byte
  /-- MT_FUNC. -/
  func : Byte
  /-- DEF_BASE. -/
  base : Byte
  /-- DEF_COUNT. -/
  count : BitVec 9
deriving DecidableEq, Repr

/-- One entry of the definition memory (R43): both words as written, reserved bits included. -/
structure DefEntry where
  /-- DEF_LO. -/
  lo : Word
  /-- DEF_HI. -/
  hi : Word
deriving DecidableEq, Repr

/-- The configuration state that the host writes (R20). -/
structure Tables where
  /-- UT (R40). -/
  ut : Vector UnitEntry 256
  /-- MT (R41, R42). -/
  mt : Vector FuncEntry 64
  /-- DM (R43, R44). -/
  dm : Vector DefEntry 256
deriving DecidableEq, Repr

/-- The fields of FRAME0 (R25). -/
structure Frame0 where
  /-- UNIT_ID. -/
  unitId : Byte
  /-- FUNC. -/
  func : Byte
  /-- BYTE_COUNT. -/
  byteCount : Byte
  /-- REG_COUNT. -/
  regCount : BitVec 7
  /-- FRAME_VALID. -/
  valid : Bool
deriving DecidableEq, Repr

/-- The fields of FRAME1 (R26). -/
structure Frame1 where
  /-- CRC_RAW. -/
  crcRaw : Half
  /-- CRC_OK. -/
  crcOk : Bool
  /-- WARN_LEN. -/
  warnLen : Bool
deriving DecidableEq, Repr

/-- The frame state, written only by DECODE (R20). -/
structure Frame where
  frame0 : Frame0
  frame1 : Frame1
  /-- REGS (R27). -/
  regs : Vector Half 128
deriving DecidableEq, Repr

/-- The fields of MAPINFO (R29). -/
structure MapInfo where
  /-- DEVICE_ID. -/
  deviceId : Byte
  /-- DEV_VALID. -/
  devValid : Bool
  /-- FUNC_HIT. -/
  funcHit : Bool
  /-- NVALID. -/
  nvalid : BitVec 9
deriving DecidableEq, Repr

/-- The fields of one SLOTINFO entry (R30). -/
structure SlotInfo where
  /-- VALID. -/
  valid : Bool
  /-- TAG. -/
  tag : Tag
deriving DecidableEq, Repr

/-- The map state, written by DECODE and MAP (R20). -/
structure Mapping where
  /-- MAPINFO (R29). -/
  info : MapInfo
  /-- VALUE (R30). -/
  value : Vector Word 256
  /-- SLOTINFO (R30). -/
  slotInfo : Vector SlotInfo 256
deriving DecidableEq, Repr

/-- STATUS (R32) without BUSY, which shows ENG_STATE (R45) and is not stored twice. -/
structure Status where
  /-- DONE (R34). -/
  done : Bool
  /-- ERR (R35). -/
  err : ErrCode
  /-- LAST_OP (R36). -/
  lastOp : Byte
  /-- OVERRUN (R37). -/
  overrun : Bool
  /-- BUSYWR (R38). -/
  busyWr : Bool
deriving DecidableEq, Repr

/-- The hidden engine state (R20, R45). -/
structure Engine where
  /-- ENG_STATE. -/
  state : EngState
  /-- ENG_OP. -/
  op : Byte
  /-- DCUR, the definition cursor (R31): there is one only while MAP's loop runs (R46), and none between commands. -/
  dcur : Option (BitVec 9)
deriving DecidableEq, Repr

/-- What happens next at the block: a step of the host, a step of the engine (R17), or a reset (R225). -/
inductive Turn where
  /-- The host reads the word at a bus address (R12 `MemRead`). -/
  | read (addr : Nat)
  /-- The host writes a word at a bus address (R12 `MemWrite`). -/
  | write (addr : Nat) (v : Word)
  /-- The engine takes its completion step if it is enabled (R113). -/
  | engine
  /-- The platform resets the block (R225). -/
  | reset
deriving DecidableEq, Repr

/-- The whole state. The last three fields are the model's own, not the spec's. -/
structure State where
  inputs : Inputs
  tables : Tables
  frame : Frame
  mapping : Mapping
  /-- RESULT (R24). -/
  result : Word
  status : Status
  engine : Engine
  /-- The model's own: how many resets came before the current one; the draws of R226 depend on it (log 3). -/
  epoch : Nat
  /-- The model's own: the turns still to come, the next one first. It is the interleaving of R19 and R123 as data: the
  number of turns before the engine's is LATENCY (log 2). -/
  sched : List Turn
  /-- The model's own: the word that the last host read of the window returned (log 6). -/
  rdata : Word
deriving DecidableEq, Repr

/-- A file of `n` entries, entry `i` given by its index. -/
def tabulate (n : Nat) {α : Type} (f : Nat → α) : Vector α n := ⟨⟨(List.range n).map f⟩, by simp⟩

/-- A file of `n` equal entries. -/
def fill (n : Nat) {α : Type} (a : α) : Vector α n := ⟨⟨List.replicate n a⟩, by simp⟩

/-- FRAME0 = 0. -/
def Frame0.zero : Frame0 := ⟨0, 0, 0, 0, false⟩

/-- FRAME1 with CRC_RAW = 0, CRC_OK = 0 and the given WARN_LEN. -/
def Frame1.cleared (warn : Bool) : Frame1 := ⟨0, false, warn⟩

/-- The frame state of `clear_frame(w)` (R126), which is also the reset value with `w` = 0 (R225). -/
def Frame.cleared (warn : Bool) : Frame := ⟨.zero, .cleared warn, fill 128 0⟩

/-- The map state of `clear_map()` (R126), which is also the reset value (R225). -/
def Mapping.cleared : Mapping := ⟨⟨0, false, false, 0⟩, fill 256 0, fill 256 ⟨false, .int⟩⟩

/-- The configuration right after reset: every valid bit 0, every other field a draw (R225, R226). -/
def Tables.drawn (epoch : Nat) : Tables where
  ut := tabulate 256 fun u => ⟨false, Config.deviceDraw epoch u⟩
  mt := tabulate 64 fun k => ⟨false, Config.mtUnitDraw epoch k, Config.mtFuncDraw epoch k, Config.mtBaseDraw epoch k,
    Config.mtCountDraw epoch k⟩
  dm := tabulate 256 fun j => ⟨Config.defLoDraw epoch j, Config.defHiDraw epoch j⟩

/-- The state right after reset number `epoch` (R225), with no DCUR ("not state between commands"). ENG_OP, which no rule
reads while the engine is IDLE, is 0 (DESIGN CHOICE, log 4); the schedule is empty and the last read word is 0 (DESIGN CHOICE, log 2 and 6). -/
def State.resetAt (epoch : Nat) : State where
  inputs := ⟨0, [], 0, 0, 0⟩
  tables := .drawn epoch
  frame := .cleared false
  mapping := .cleared
  result := 0
  status := ⟨false, .ok, 0, false, false⟩
  engine := ⟨.idle, 0, none⟩
  epoch := epoch
  sched := []
  rdata := 0

/-- The machine right after its first reset (R225). -/
def State.reset : State := .resetAt 0

end Sys2Proof.Machine
end

