-- ==== Sys2Proof/Machine/Ops.lean ====
section
/-! DEFINITION. The named operations over the frame buffer and the registers: reading and writing a byte of FB, clearing
the frame and the map state, storing a slot, accepting a command and completing one. -/

namespace Sys2Proof.Machine

/-- The byte that the host has written at an address since reset; none where it has written none. -/
def Memory.find (m : Memory) (a : Nat) : Option Byte :=
  match m with
  | [] => none
  | (a', b) :: rest => if a = a' then some b else Memory.find rest a

/-- Write one byte, keeping the addresses strictly rising. -/
def Memory.write (m : Memory) (a : Nat) (b : Byte) : Memory :=
  match m with
  | [] => [(a, b)]
  | (a', b') :: rest =>
    if a < a' then (a, b) :: (a', b') :: rest
    else if a = a' then (a, b) :: rest
    else (a', b') :: Memory.write rest a b

/-- Every address is above `lo`, and they rise strictly. -/
def Memory.risesAbove (lo : Nat) : Memory → Bool
  | [] => true
  | (a, _) :: rest => decide (lo < a) && Memory.risesAbove a rest

/-- The canonical form: addresses strictly rising, all of them of the 512 bytes of FB (R22, R60). An unlisted address has
no value, so no entry can equal it. -/
def Memory.wf : Memory → Bool
  | [] => true
  | (a, b) :: rest => Memory.risesAbove a rest && ((a, b) :: rest).all fun c => decide (c.1 < 512)

/-- FB[a] as the engine and the host read it: the byte last written, or the draw of R226 (93_implementation_defined.md U1). -/
def State.fbByte (s : State) (a : Nat) : Byte := (s.inputs.fb.find a).getD (Config.fbDraw s.epoch a)

/-- `clear_map()` of R126 (R140, R147). -/
def State.clearMap (s : State) : State := { s with mapping := .cleared }

/-- `clear_frame(w)` of R126 (R139): the frame state goes to 0 but for WARN_LEN, and the map state is cleared. -/
def State.clearFrame (warn : Bool) (s : State) : State := ({ s with frame := .cleared warn } : State).clearMap

/-- REGS[i] (R27). REGS has 128 entries; the callers test the index against REG_COUNT ≤ 127 first (R153, R156). -/
def State.reg (s : State) (i : Nat) : Half := s.frame.regs[i]?.getD 0

/-- One store of a definition: VALUE, TAG and VALID of a slot together (R158). -/
def State.storeSlot (slot : Byte) (v : Word) (tag : Tag) (s : State) : State :=
  { s with mapping := { s.mapping with
      value := s.mapping.value.set slot.toNat v slot.isLt
      slotInfo := s.mapping.slotInfo.set slot.toNat ⟨true, tag⟩ slot.isLt } }

/-- DCUR advances by exactly 1 after each definition (R31). -/
def State.advance (s : State) : State := { s with engine := { s.engine with dcur := s.engine.dcur.map (· + 1) } }

/-- Acceptance of a command (R112). -/
def State.accept (op : Byte) (s : State) : State :=
  { s with
    status := { s.status with done := false }
    engine := { s.engine with state := .busy, op := op } }

/-- How a command ends: the state its rule leaves and the error code it gives. -/
abbrev Result := State × ErrCode

/-- `raise E` (R12, R200, R215): PMB-CORE's one way to take an error. It saves nothing beyond the code that the completion
puts into STATUS.ERR, transfers control nowhere and masks nothing; there is no return from it (R216). -/
def raise (e : ErrCode) (s : State) : Result := (s, e)

/-- The path without an error: `err <- OK`. -/
def succeed (s : State) : Result := (s, .ok)

/-- The end of every completion (R113): STATUS.ERR, LAST_OP, BUSY and DONE, and ENG_STATE; DCUR ends with the command
(R46). -/
def complete (r : Result) : State :=
  { r.1 with
    status := { r.1.status with done := true, err := r.2, lastOp := r.1.engine.op }
    engine := { r.1.engine with state := .idle, dcur := none } }

/-- A reset event in a running machine (R225): everything of the block goes to its reset value with new draws; the turns
still to come and the word the host last read are not the block's. -/
def State.resetEvent (s : State) : State :=
  { State.resetAt (s.epoch + 1) with sched := s.sched, rdata := s.rdata }

/-- The CMD word that the engine runs: the latched opcode (R45). -/
def State.commandWordOf (s : State) : Word := commandWord s.engine.op

/-- The command that the engine completes (R113: "It evaluates the rule of ENG_OP"). -/
def State.command (s : State) : Instr := decodeCommand s.commandWordOf

/-- DM[DCUR], the definition being processed (R31, R146). The list range check keeps DCUR below 256 there (R151), and the
loop has a cursor from its start on (log 13). -/
def State.definitionEntry (s : State) : DefEntry :=
  match s.engine.dcur with
  | some c => s.tables.dm[c.toNat]?.getD ⟨0, 0⟩
  | none => ⟨0, 0⟩

/-- The definition operation at the cursor (R146). -/
def State.definition (s : State) : Instr := decodeDefinition s.definitionEntry.lo s.definitionEntry.hi

/-- Make a CMD word the next thing the machine runs: accept its opcode and give the engine the next turn. -/
def State.placeCommand (v : Word) (s : State) : State :=
  { s.accept (v.extractLsb' 0 8) with sched := .engine :: s.sched }

/-- Make one definition the next thing the machine runs: the whole list of a live function entry for the current frame's
unit and function, under a MAP whose completion is the next turn (R145, R146). -/
def State.placeDefinition (lo hi : Word) (s : State) : State :=
  let f := s.frame.frame0
  let unit := s.tables.ut[f.unitId.toNat]
  let placed : State :=
    { s with
      frame := { s.frame with frame0 := { f with valid := true } }
      tables :=
        { ut := s.tables.ut.set f.unitId.toNat { unit with valid := true } f.unitId.isLt
          mt := s.tables.mt.set 0 ⟨true, f.unitId, f.func, 0, 1⟩
          dm := s.tables.dm.set 0 ⟨lo, hi⟩ } }
  { placed.accept 0x02#8 with sched := .engine :: s.sched }

end Sys2Proof.Machine
end

