-- ==== Sys2Proof/Machine/Operands.lean ====
section
/-! DEFINITION. The operand forms: the fields of a definition (R97 to R99), of ARG0 to ARG2 for the direct commands
(R98, R99) and of the frame for DECODE (R86, R128, R133, R136). -/

namespace Sys2Proof

/-- M of a definition: DEF_HI[15:0] (R92, R98). -/
def DefOperands.mult (d : DefOperands) : Half := d.hi.extractLsb' 0 16

/-- FSCALE of a definition: the whole of DEF_HI (R92, R99). -/
def DefOperands.fscale (d : DefOperands) : Word := d.hi

namespace Machine

/-- L, the frame's length FLEN[8:0] (R21, R125). -/
def State.frameLength (s : State) : Nat := s.inputs.flen.toNat

/-- N, the byte count FB[2] (R128). -/
def State.byteCount (s : State) : Nat := (s.fbByte 2).toNat

/-- Register i of the frame: {FB[3+2i], FB[4+2i]}, the first byte the more significant (R70, R133). -/
def State.wireReg (s : State) (i : Nat) : Half := s.fbByte (3 + 2 * i) ++ s.fbByte (4 + 2 * i)

/-- CRC_RAW: {FB[L−1], FB[L−2]}, taken from the end of the payload (R73, R136). -/
def State.wireCrc (s : State) : Half := s.fbByte (s.frameLength - 1) ++ s.fbByte (s.frameLength - 2)

/-- REG_COUNT of the current frame as a number (R25, R97). -/
def State.regCount (s : State) : Nat := s.frame.frame0.regCount.toNat

/-- hi of the F32 command, r of SCALE: ARG0[15:0] (R98, R99). -/
def State.arg0Low (s : State) : Half := s.inputs.arg0.extractLsb' 0 16

/-- lo of the F32 command, M of SCALE: ARG1[15:0] (R98, R99). -/
def State.arg1Low (s : State) : Half := s.inputs.arg1.extractLsb' 0 16

/-- WO of the F32 command: ARG2[2:0] (R99). -/
def State.argWordOrder (s : State) : BitVec 3 := s.inputs.arg2.extractLsb' 0 3

/-- S of the SCALE command: ARG2[4:0] (R98). -/
def State.argShift (s : State) : BitVec 5 := s.inputs.arg2.extractLsb' 0 5

end Machine

end Sys2Proof
end

