-- ==== Sys2Proof/Machine/Flags.lean ====
section
/-! DEFINITION. Every flag the spec computes (R47), and the words of 10_state.md put together from the fields that State
holds (R25, R26, R29, R30, R32, R100, R101). -/

namespace Sys2Proof.Machine

/-- STATUS.ERR of an error (R102, R201). -/
def ErrCode.code : ErrCode → BitVec 4
  | .ok => 0
  | .frameTooShort => 1
  | .oddByteCount => 2
  | .dataShort => 3
  | .noFrame => 4
  | .cfgErr => 5
  | .badCmd => 6

/-- SLOTINFO.TAG of a tag (R30, R103). -/
def Tag.code : Tag → BitVec 2
  | .int => 0
  | .f32 => 1
  | .raw => 2

/-- WARN_LEN: the payload length differs from 3 + N + 2 (R129). -/
def warnLen (l n : Nat) : Bool := decide (l ≠ 3 + n + 2)

/-- STATUS.BUSY shows ENG_STATE (R45, R111). -/
def State.isBusy (s : State) : Bool := s.engine.state == .busy

/-- NVALID: the number of slots with VALID = 1 (R29, R159). -/
def countValid (info : Vector SlotInfo 256) : BitVec 9 := BitVec.ofNat 9 (info.toList.countP fun e => e.valid)

/-- One bit of a word. -/
def bit (b : Bool) : BitVec 1 := BitVec.ofBool b

/-- STATUS as the host reads it (R32). -/
def State.statusWord (s : State) : Word :=
  0#14 ++ bit s.status.busyWr ++ bit s.status.overrun ++ s.status.lastOp ++ s.status.err.code ++ 0#2 ++ bit s.status.done
    ++ bit s.isBusy

/-- FRAME0 as the host reads it (R25). -/
def Frame0.word (f : Frame0) : Word := bit f.valid ++ f.regCount ++ f.byteCount ++ f.func ++ f.unitId

/-- FRAME1 as the host reads it (R26). -/
def Frame1.word (f : Frame1) : Word := 0#14 ++ bit f.warnLen ++ bit f.crcOk ++ f.crcRaw

/-- MAPINFO as the host reads it (R29). -/
def MapInfo.word (m : MapInfo) : Word := 0#7 ++ m.nvalid ++ 0#6 ++ bit m.funcHit ++ bit m.devValid ++ m.deviceId

/-- A SLOTINFO entry as the host reads it (R30). -/
def SlotInfo.word (e : SlotInfo) : Word := 0#29 ++ e.tag.code ++ bit e.valid

/-- A UT entry as the host reads it (R40, R100). -/
def UnitEntry.word (e : UnitEntry) : Word := 0#23 ++ bit e.valid ++ e.deviceId

/-- MT_KEY of a function entry as the host reads it (R41, R101). -/
def FuncEntry.keyWord (e : FuncEntry) : Word := 0#15 ++ bit e.valid ++ e.func ++ e.unit

/-- MT_LIST of a function entry as the host reads it (R42, R101). -/
def FuncEntry.listWord (e : FuncEntry) : Word := 0#7 ++ e.count ++ 0#8 ++ e.base

end Sys2Proof.Machine
end

