-- ==== Sys2Proof/Machine/Bus.lean ====
section
/-! DEFINITION. The host's side: the address map of the window (R61, R62, R64), what a read returns (R65, R66, R118) and
what a write does in either engine state (R65, R112, R116, R117, R119). -/

namespace Sys2Proof.Machine

/-- What stands at a word of the window (R62). -/
inductive Loc where
  | cmd
  | status
  | flen
  | arg0
  | arg1
  | arg2
  | result
  | frame0
  | frame1
  | mapInfo
  | regs (i : Fin 128)
  | fb (w : Fin 128)
  | value (k : Fin 256)
  | slotInfo (k : Fin 256)
  | ut (u : Fin 256)
  | mtKey (k : Fin 64)
  | mtList (k : Fin 64)
  | defLo (j : Fin 256)
  | defHi (j : Fin 256)
  | reserved
deriving DecidableEq, Repr

/-- The address map over word numbers, that is, offset bits [13:2] (R62). -/
def locateWord (w : Nat) : Loc :=
  if w = 0 then .cmd
  else if w = 1 then .status
  else if w = 2 then .flen
  else if w = 3 then .arg0
  else if w = 4 then .arg1
  else if w = 5 then .arg2
  else if w = 6 then .result
  else if w = 8 then .frame0
  else if w = 9 then .frame1
  else if w = 10 then .mapInfo
  else if h : 0x80 ≤ w ∧ w < 0x100 then .regs ⟨w - 0x80, by omega⟩
  else if h : 0x100 ≤ w ∧ w < 0x180 then .fb ⟨w - 0x100, by omega⟩
  else if h : 0x200 ≤ w ∧ w < 0x300 then .value ⟨w - 0x200, by omega⟩
  else if h : 0x300 ≤ w ∧ w < 0x400 then .slotInfo ⟨w - 0x300, by omega⟩
  else if h : 0x400 ≤ w ∧ w < 0x500 then .ut ⟨w - 0x400, by omega⟩
  else if h : 0x500 ≤ w ∧ w < 0x580 then
    if w % 2 = 0 then .mtKey ⟨(w - 0x500) / 2, by omega⟩ else .mtList ⟨(w - 0x500) / 2, by omega⟩
  else if h : 0x800 ≤ w ∧ w < 0xA00 then
    if w % 2 = 0 then .defLo ⟨(w - 0x800) / 2, by omega⟩ else .defHi ⟨(w - 0x800) / 2, by omega⟩
  else .reserved

/-- What an offset of the window selects: bits [1:0] are ignored (R61, R64). -/
def locate (off : Nat) : Loc := locateWord (off / 4 % 4096)

/-- The protected locations (R38, R62, R117). -/
def Loc.isProtected : Loc → Bool
  | .flen | .arg0 | .arg1 | .arg2 | .fb _ | .ut _ | .mtKey _ | .mtList _ | .defLo _ | .defHi _ => true
  | .cmd | .status | .result | .frame0 | .frame1 | .mapInfo | .regs _ | .value _ | .slotInfo _ | .reserved => false

/-- FB word w, FB[4w] in its low byte (R66). -/
def State.fbWord (s : State) (w : Nat) : Word :=
  s.fbByte (4 * w + 3) ++ s.fbByte (4 * w + 2) ++ s.fbByte (4 * w + 1) ++ s.fbByte (4 * w)

/-- The word a host read of a location returns (R39, R62, R65, R66, R118). -/
def State.readLoc (s : State) : Loc → Word
  | .cmd => 0
  | .status => s.statusWord
  | .flen => s.inputs.flen.setWidth 32
  | .arg0 => s.inputs.arg0
  | .arg1 => s.inputs.arg1
  | .arg2 => s.inputs.arg2
  | .result => s.result
  | .frame0 => s.frame.frame0.word
  | .frame1 => s.frame.frame1.word
  | .mapInfo => s.mapping.info.word
  | .regs i => s.frame.regs[i].setWidth 32
  | .fb w => s.fbWord w
  | .value k => s.mapping.value[k]
  | .slotInfo k => s.mapping.slotInfo[k].word
  | .ut u => s.tables.ut[u].word
  | .mtKey k => s.tables.mt[k].keyWord
  | .mtList k => s.tables.mt[k].listWord
  | .defLo j => s.tables.dm[j].lo
  | .defHi j => s.tables.dm[j].hi
  | .reserved => 0

/-- Write FB word w: FB[4w+i] is byte i of the word (R66). -/
def Memory.writeWord (m : Memory) (w : Nat) (v : Word) : Memory :=
  (((m.write (4 * w) (v.extractLsb' 0 8)).write (4 * w + 1) (v.extractLsb' 8 8)).write (4 * w + 2)
    (v.extractLsb' 16 8)).write (4 * w + 3) (v.extractLsb' 24 8)

/-- UT[u] as written: only U_VALID and DEVICE_ID are stored (R40). -/
def UnitEntry.ofWord (v : Word) : UnitEntry := ⟨v.getLsbD 8, v.extractLsb' 0 8⟩

/-- MT_KEY[k] as written (R41). -/
def FuncEntry.withKey (v : Word) (e : FuncEntry) : FuncEntry :=
  { e with valid := v.getLsbD 16, unit := v.extractLsb' 0 8, func := v.extractLsb' 8 8 }

/-- MT_LIST[k] as written (R42). -/
def FuncEntry.withList (v : Word) (e : FuncEntry) : FuncEntry :=
  { e with base := v.extractLsb' 0 8, count := v.extractLsb' 16 9 }

/-- A write to a protected location that takes effect: what it stores. Any other location stores nothing here. -/
def State.store (s : State) (v : Word) : Loc → State
  | .flen => { s with inputs := { s.inputs with flen := v.extractLsb' 0 9 } }
  | .arg0 => { s with inputs := { s.inputs with arg0 := v } }
  | .arg1 => { s with inputs := { s.inputs with arg1 := v } }
  | .arg2 => { s with inputs := { s.inputs with arg2 := v } }
  | .fb w => { s with inputs := { s.inputs with fb := s.inputs.fb.writeWord w v } }
  | .ut u => { s with tables := { s.tables with ut := s.tables.ut.set u (.ofWord v) } }
  | .mtKey k => { s with tables := { s.tables with mt := s.tables.mt.set k (s.tables.mt[k].withKey v) } }
  | .mtList k => { s with tables := { s.tables with mt := s.tables.mt.set k (s.tables.mt[k].withList v) } }
  | .defLo j => { s with tables := { s.tables with dm := s.tables.dm.set j { s.tables.dm[j] with lo := v } } }
  | .defHi j => { s with tables := { s.tables with dm := s.tables.dm.set j { s.tables.dm[j] with hi := v } } }
  | .cmd | .status | .result | .frame0 | .frame1 | .mapInfo | .regs _ | .value _ | .slotInfo _ | .reserved => s

/-- A write to CMD: acceptance while IDLE (R112), dropped with OVERRUN while BUSY (R116). -/
def State.writeCommand (v : Word) (s : State) : State :=
  if s.isBusy then { s with status := { s.status with overrun := true } } else s.accept (v.extractLsb' 0 8)

/-- A write to STATUS clears OVERRUN and BUSYWR where bits 16 and 17 are written 1, in both engine states (R32, R119). -/
def State.writeStatus (v : Word) (s : State) : State :=
  { s with status := { s.status with
      overrun := s.status.overrun && !v.getLsbD 16
      busyWr := s.status.busyWr && !v.getLsbD 17 } }

/-- A write to a protected location is dropped while BUSY and sets BUSYWR (R117). -/
def State.writeProtected (v : Word) (l : Loc) (s : State) : State :=
  if s.isBusy then { s with status := { s.status with busyWr := true } } else s.store v l

/-- A host write to a location: CMD, STATUS, a protected location, or one that ignores it (R65, R69). -/
def State.writeLoc (v : Word) (l : Loc) (s : State) : State :=
  match l with
  | .cmd => s.writeCommand v
  | .status => s.writeStatus v
  | l => if l.isProtected then s.writeProtected v l else s

/-- The location that a bus address targets, if it lies in the window (R61). -/
def locateAddr (addr : Nat) : Option Loc :=
  if Config.base ≤ addr ∧ addr < Config.base + 0x4000 then some (locate (addr - Config.base)) else none

/-- A host read: the word comes back to the host and nothing else changes (R68, R69). An address outside the window is not
the block's (R61). -/
def State.busRead (addr : Nat) (s : State) : State :=
  match locateAddr addr with
  | some l => { s with rdata := s.readLoc l }
  | none => s

/-- A host write of a whole word (R63). -/
def State.busWrite (addr : Nat) (v : Word) (s : State) : State :=
  match locateAddr addr with
  | some l => s.writeLoc v l
  | none => s

end Sys2Proof.Machine
end

