-- ==== Sys2Proof/Machine/Float.lean ====
section
/-! DEFINITION. FR, the float32 reconstructor, and FM, the binary32 multiplier (43_float32_reconstructor.md). -/

namespace Sys2Proof.Machine

/-- `f32recon(hi, lo, wo)` (R170): the four bytes a, b, c, d in the order that WO selects; 1xx is ABCD (R176). -/
def f32recon (hi lo : Half) (wo : BitVec 3) : Word :=
  let a : Byte := hi.extractLsb' 8 8
  let b : Byte := hi.extractLsb' 0 8
  let c : Byte := lo.extractLsb' 8 8
  let d : Byte := lo.extractLsb' 0 8
  if wo = 0b001#3 then b ++ a ++ d ++ c
  else if wo = 0b010#3 then c ++ d ++ a ++ b
  else if wo = 0b011#3 then d ++ c ++ b ++ a
  else a ++ b ++ c ++ d

/-- `bswap16` (R173). -/
def bswap16 (w : Half) : Half := (w.extractLsb' 0 8 : Byte) ++ (w.extractLsb' 8 8 : Byte)

/-- The biased exponent x[30:23] (R13). -/
def f32Exponent (x : Word) : Nat := (x.extractLsb' 23 8).toNat

/-- The fraction x[22:0] (R13). -/
def f32Fraction (x : Word) : Nat := (x.extractLsb' 0 23).toNat

/-- The sign x[31] (R13). -/
def f32Sign (x : Word) : Bool := x.getLsbD 31

/-- `isNaN` (R13). -/
def isNaN (x : Word) : Bool := f32Exponent x == 255 && f32Fraction x != 0

/-- `isInf` (R13). -/
def isInf (x : Word) : Bool := f32Exponent x == 255 && f32Fraction x == 0

/-- `isZero` (R13). -/
def isZero (x : Word) : Bool := x.extractLsb' 0 31 == 0#31

/-- 1.0 (R180). -/
def f32One : Word := 0x3F800000#32

/-- The default NaN of an invalid product (R182). -/
def f32DefaultNaN : Word := 0x7FC00000#32

/-- The magnitude bits of infinity. -/
def f32InfBits : Nat := 0x7F800000

/-- A NaN with its quiet bit 22 set, sign and payload kept (R181). -/
def quiet (x : Word) : Word := x ||| 0x00400000#32

/-- A binary32 word from a sign and the 31 bits below it. -/
def f32Pack (sign : Bool) (bits : Nat) : Word := bit sign ++ BitVec.ofNat 31 bits

/-- The integer significand of R185: f when e = 0, and 2^23 + f otherwise. -/
def f32Significand (x : Word) : Nat := if f32Exponent x = 0 then f32Fraction x else 2 ^ 23 + f32Fraction x

/-- The exponent of R185 plus 150: a finite value is ± significand · 2^(this − 150), subnormal or not. -/
def f32Scale (x : Word) : Nat := if f32Exponent x = 0 then 1 else f32Exponent x

/-- m / 2^k to the nearest integer, ties to the even one (R185). -/
def roundEven (m k : Nat) : Nat :=
  let q := m / 2 ^ k
  let r := m % 2 ^ k
  if 2 * r < 2 ^ k then q else if 2 ^ k < 2 * r then q + 1 else q + q % 2

/-- The magnitude bits of the binary32 value nearest to m · 2^(e − 300), for m > 0 (R185 to R187). The result is an
integer number n of units 2^(q − 149), q = 0 for a subnormal and otherwise such that n has 24 bits; rounding up to
2^24 carries into the exponent field, and a magnitude of 2^128 or more is infinity. -/
def f32Round (m e : Nat) : Nat :=
  let q := Nat.log2 m + e - 174
  let n := if 151 + q ≤ e then m * 2 ^ (e - (151 + q)) else roundEven m (151 + q - e)
  min (q * 2 ^ 23 + n) f32InfBits

/-- The magnitude bits of the product of two finite nonzero values (R185). -/
def f32MulBits (x y : Word) : Nat := f32Round (f32Significand x * f32Significand y) (f32Scale x + f32Scale y)

/-- `fmul32(x, y)` (R180 to R187, in that order). It has no flags and no modes (R188). -/
def fmul32 (x y : Word) : Word :=
  let sign := f32Sign x ^^ f32Sign y
  if y = f32One then x
  else if isNaN x then quiet x
  else if isNaN y then quiet y
  else if (isInf x && isZero y) || (isZero x && isInf y) then f32DefaultNaN
  else if isInf x || isInf y then f32Pack sign f32InfBits
  else if isZero x || isZero y then f32Pack sign 0
  else f32Pack sign (f32MulBits x y)

end Sys2Proof.Machine
end

