-- ==== Sys2Proof/Machine/Scaler.lean ====
section
/-! DEFINITION. FS, the fixed-point scaler (44_fixed_point_scaler.md). -/

namespace Sys2Proof.Machine

/-- P of R190: the exact product of the unsigned register word and the signed multiplier. -/
def fxProduct (r m : Half) : Int := (r.toNat : Int) * m.toInt

/-- `fxscale(r, m, s)` (R190): floor(P / 2^s) as a two's-complement 32-bit number; the integer division by a positive
divisor rounds toward minus infinity (R192). -/
def fxscale (r m : Half) (s : BitVec 5) : Word := BitVec.ofInt 32 (fxProduct r m / 2 ^ s.toNat)

end Sys2Proof.Machine
end

