-- ==== Sys2Proof/Machine/Command.lean ====
section
/-! DEFINITION. The commands that compute nothing: NOP (R114) and the reserved opcodes (R115), each with a definition of
its own. -/

namespace Sys2Proof.Machine

/-- NOP (R114): nothing but the completion with ERR = 0. -/
def execNop (s : State) : Host.Outcome State Fault Refusal := .next (complete (succeed s))

/-- `raise BAD_CMD(ENG_OP)` (R115, R207): nothing is written but STATUS; LAST_OP is ENG_OP by the completion. -/
def badCommand (s : State) : Result := raise .badCmd s

/-- The reserved opcode 0x07 (R115). -/
def execReserved07 (s : State) : Host.Outcome State Fault Refusal := .next (complete (badCommand s))

/-- The reserved opcodes 0x08 to 0x0F (R115). -/
def execReserved08 (_op : Byte) (s : State) : Host.Outcome State Fault Refusal := .next (complete (badCommand s))

/-- The reserved opcodes 0x10 to 0x1F (R115). -/
def execReserved10 (_op : Byte) (s : State) : Host.Outcome State Fault Refusal := .next (complete (badCommand s))

/-- The reserved opcodes 0x20 to 0x3F (R115). -/
def execReserved20 (_op : Byte) (s : State) : Host.Outcome State Fault Refusal := .next (complete (badCommand s))

/-- The reserved opcodes 0x40 to 0x7F (R115). -/
def execReserved40 (_op : Byte) (s : State) : Host.Outcome State Fault Refusal := .next (complete (badCommand s))

/-- The reserved opcodes 0x80 to 0xFF (R115). -/
def execReserved80 (_op : Byte) (s : State) : Host.Outcome State Fault Refusal := .next (complete (badCommand s))

end Sys2Proof.Machine
end

