-- ==== Sys2Proof/Machine/Direct.lean ====
section
/-! DEFINITION. The direct commands F32, SCALE and FMUL, which write RESULT (R179, R189, R195). -/

namespace Sys2Proof.Machine

/-- The one write of a direct command: RESULT, with ERR = 0 (R24, R121). -/
def State.withResult (v : Word) (s : State) : Result := succeed { s with result := v }

/-- F32 (R179): RESULT is the reconstruction of ARG0[15:0] and ARG1[15:0] in the order ARG2[2:0], unscaled. -/
def execF32 (s : State) : Host.Outcome State Fault Refusal :=
  .next (complete (s.withResult (f32recon s.arg0Low s.arg1Low s.argWordOrder)))

/-- SCALE (R195): RESULT is the fixed-point scaling of ARG0[15:0] by ARG1[15:0] and ARG2[4:0]. -/
def execScale (s : State) : Host.Outcome State Fault Refusal :=
  .next (complete (s.withResult (fxscale s.arg0Low s.arg1Low s.argShift)))

/-- FMUL (R189): RESULT is the binary32 product of ARG0 by the scale ARG1; ARG2 is ignored. -/
def execFmul (s : State) : Host.Outcome State Fault Refusal :=
  .next (complete (s.withResult (fmul32 s.inputs.arg0 s.inputs.arg1)))

end Sys2Proof.Machine
end

