-- ==== Sys2Proof/Machine/FrameDecoder.lean ====
section
/-! DEFINITION. FD, the frame decoder: DECODE (41_frame_decoder.md). -/

namespace Sys2Proof.Machine

/-- FRAME0 of a successful DECODE (R126, R132, R135, R138). -/
def State.decodedFrame0 (s : State) : Frame0 where
  unitId := s.fbByte 0
  func := s.fbByte 1
  byteCount := s.fbByte 2
  regCount := BitVec.ofNat 7 (s.byteCount / 2)
  valid := true

/-- FRAME1 of a successful DECODE (R126, R129, R136, R137). -/
def State.decodedFrame1 (s : State) : Frame1 where
  crcRaw := s.wireCrc
  crcOk := true
  warnLen := warnLen s.frameLength s.byteCount

/-- REGS of a successful DECODE (R126, R133, R134). -/
def State.decodedRegs (s : State) : Vector Half 128 :=
  tabulate 128 fun i => if i < s.byteCount / 2 then s.wireReg i else 0

/-- The frame state of a successful DECODE. -/
def State.decodedFrame (s : State) : Frame := ⟨s.decodedFrame0, s.decodedFrame1, s.decodedRegs⟩

/-- DECODE's pseudocode (R126), its checks in the order of R211. -/
def decodeBody (s : State) : Result :=
  let l := s.frameLength
  if l < 5 then raise .frameTooShort (s.clearFrame false)
  else
    let n := s.byteCount
    let warn := warnLen l n
    if n % 2 = 1 then raise .oddByteCount (s.clearFrame warn)
    else if l < 3 + n then raise .dataShort (s.clearFrame warn)
    else succeed ({ s with frame := s.decodedFrame } : State).clearMap

/-- DECODE (R125, R126). -/
def execDecode (s : State) : Host.Outcome State Fault Refusal := .next (complete (decodeBody s))

end Sys2Proof.Machine
end

