-- ==== Sys2Proof/Machine/Mapper.lean ====
section
/-! DEFINITION. RM, the register mapper: the definition operations U16, F32 and RAW, MAP and DECMAP
(42_register_mapper.md). A definition operation works on the map state that MAP builds; MAP's commit shows it to the host
in one step (R113). -/

namespace Sys2Proof.Machine

/-- A U16 or RAW definition (R154, R157): skipped when INDEX ≥ REG_COUNT (R153), else the scaled register is stored. -/
def mapInteger (tag : Tag) (d : DefOperands) (s : State) : State :=
  if s.regCount ≤ d.index.toNat then s
  else s.storeSlot d.slot (fxscale (s.reg d.index.toNat) d.mult d.shift) tag

/-- An F32 definition (R155): skipped when INDEX ≥ REG_COUNT (R153) or INDEX + 1 ≥ REG_COUNT (R156), else the
reconstructed and scaled value is stored. -/
def mapFloat (wo : BitVec 3) (d : DefOperands) (s : State) : State :=
  if s.regCount ≤ d.index.toNat then s
  else if s.regCount ≤ d.index.toNat + 1 then s
  else s.storeSlot d.slot (fmul32 (f32recon (s.reg d.index.toNat) (s.reg (d.index.toNat + 1)) wo) d.fscale) .f32

/-- The effect of U16 (R154) and of the cursor's step (R31); WO is ignored (R161). -/
def mapU16 (_wo : BitVec 3) (d : DefOperands) (s : State) : State := (mapInteger .int d s).advance

/-- The effect of F32 in the order ABCD (R155, R172); S is ignored (R161). -/
def mapF32Abcd (d : DefOperands) (s : State) : State := (mapFloat 0b000#3 d s).advance

/-- The effect of F32 in the order BADC (R155, R173). -/
def mapF32Badc (d : DefOperands) (s : State) : State := (mapFloat 0b001#3 d s).advance

/-- The effect of F32 in the order CDAB (R155, R174). -/
def mapF32Cdab (d : DefOperands) (s : State) : State := (mapFloat 0b010#3 d s).advance

/-- The effect of F32 in the order DCBA (R155, R175). -/
def mapF32Dcba (d : DefOperands) (s : State) : State := (mapFloat 0b011#3 d s).advance

/-- The effect of F32 with a reserved order, which f32recon reads as ABCD (R95, R176). -/
def mapF32Reserved (wo : BitVec 3) (d : DefOperands) (s : State) : State := (mapFloat wo d s).advance

/-- The effect of RAW (R157): as U16 but for the TAG (R96). -/
def mapRaw (_dtype : BitVec 2) (_wo : BitVec 3) (d : DefOperands) (s : State) : State := (mapInteger .raw d s).advance

/-- U16 (R154). -/
def execU16 (wo : BitVec 3) (d : DefOperands) (s : State) : Host.Outcome State Fault Refusal := .next (mapU16 wo d s)

/-- F32.ABCD (R155). -/
def execF32Abcd (d : DefOperands) (s : State) : Host.Outcome State Fault Refusal := .next (mapF32Abcd d s)

/-- F32.BADC (R155). -/
def execF32Badc (d : DefOperands) (s : State) : Host.Outcome State Fault Refusal := .next (mapF32Badc d s)

/-- F32.CDAB (R155). -/
def execF32Cdab (d : DefOperands) (s : State) : Host.Outcome State Fault Refusal := .next (mapF32Cdab d s)

/-- F32.DCBA (R155). -/
def execF32Dcba (d : DefOperands) (s : State) : Host.Outcome State Fault Refusal := .next (mapF32Dcba d s)

/-- F32 with a reserved WO (R176). -/
def execF32Reserved (wo : BitVec 3) (d : DefOperands) (s : State) : Host.Outcome State Fault Refusal :=
  .next (mapF32Reserved wo d s)

/-- RAW (R157). -/
def execRaw (dtype : BitVec 2) (wo : BitVec 3) (d : DefOperands) (s : State) : Host.Outcome State Fault Refusal :=
  .next (mapRaw dtype wo d s)

/-- The dispatch of MAP's loop on the definition at the cursor (R146). A DM entry never decodes to a command (R108), so the
command constructors have no effect here. -/
def runDefinition (i : Instr) (s : State) : State :=
  match i with
  | .u16 wo d => mapU16 wo d s
  | .f32Abcd d => mapF32Abcd d s
  | .f32Badc d => mapF32Badc d s
  | .f32Cdab d => mapF32Cdab d s
  | .f32Dcba d => mapF32Dcba d s
  | .f32Reserved wo d => mapF32Reserved wo d s
  | .raw dtype wo d => mapRaw dtype wo d s
  | .nop | .decode | .map | .decmap | .f32 | .scale | .fmul => s
  | .reserved07 | .reserved08 _ | .reserved10 _ | .reserved20 _ | .reserved40 _ | .reserved80 _ => s

/-- MAP's loop over `count` definitions from the cursor on, in list order (R146, R152). -/
def runDefinitions (count : Nat) (s : State) : State :=
  match count with
  | 0 => s
  | n + 1 => runDefinitions n (runDefinition s.definition s)

/-- Whether a function entry is live for a unit and a function (R150). -/
def FuncEntry.hits (u f : Byte) (e : FuncEntry) : Bool := e.valid && e.unit == u && e.func == f

/-- The function lookup: the matching entry with the least index (R150). -/
def State.lookupFunction (s : State) (u f : Byte) : Option FuncEntry := s.tables.mt.toList.find? (FuncEntry.hits u f)

/-- The map state of a unit hit: DEV_VALID and DEVICE_ID, every slot invalid (R146, R150). -/
def Mapping.ofDevice (dev : Byte) : Mapping := { Mapping.cleared with info := ⟨dev, true, false, 0⟩ }

/-- The start of MAP's loop: FUNC_HIT set and the cursor at DEF_BASE (R31, R146). -/
def State.startList (dev : Byte) (e : FuncEntry) (s : State) : State :=
  { s with
    mapping := { Mapping.cleared with info := ⟨dev, true, true, 0⟩ }
    engine := { s.engine with dcur := some (e.base.setWidth 9) } }

/-- The end of MAP's loop: NVALID counts the slots stored (R146, R159). -/
def State.finishList (s : State) : State :=
  { s with mapping := { s.mapping with info := { s.mapping.info with nvalid := countValid s.mapping.slotInfo } } }

/-- MAP once the function entry is found: the list range check, then the list (R146, R151). -/
def mapList (dev : Byte) (e : FuncEntry) (s : State) : Result :=
  if 256 < e.base.toNat + e.count.toNat then raise .cfgErr s.clearMap
  else succeed (runDefinitions e.count.toNat (s.startList dev e)).finishList

/-- MAP's pseudocode (R146). -/
def mapBody (s : State) : Result :=
  if s.frame.frame0.valid then
    let u := s.frame.frame0.unitId
    let unit := s.tables.ut[u.toNat]
    if unit.valid then
      match s.lookupFunction u s.frame.frame0.func with
      | some e => mapList unit.deviceId e s
      | none => succeed { s with mapping := .ofDevice unit.deviceId }
    else succeed s.clearMap
  else raise .noFrame s.clearMap

/-- MAP (R145, R146). -/
def execMap (s : State) : Host.Outcome State Fault Refusal := .next (complete (mapBody s))

/-- DECMAP's pseudocode (R162): DECODE, and MAP on the new frame if it succeeded. -/
def decmapBody (s : State) : Result :=
  match decodeBody s with
  | (t, .ok) => mapBody t
  | (t, e) => (t, e)

/-- DECMAP (R162). -/
def execDecmap (s : State) : Host.Outcome State Fault Refusal := .next (complete (decmapBody s))

end Sys2Proof.Machine
end

