-- ==== Sys2Proof/Machine/Dispatch.lean ====
section
/-! DEFINITION. The meaning of every instruction, one arm per constructor. -/

namespace Sys2Proof.Machine

def exec (i : Instr) (s : State) : Host.Outcome State Fault Refusal :=
  match i with
  | .nop => Sys2Proof.Machine.execNop s
  | .decode => Sys2Proof.Machine.execDecode s
  | .map => Sys2Proof.Machine.execMap s
  | .decmap => Sys2Proof.Machine.execDecmap s
  | .f32 => Sys2Proof.Machine.execF32 s
  | .scale => Sys2Proof.Machine.execScale s
  | .fmul => Sys2Proof.Machine.execFmul s
  | .reserved07 => Sys2Proof.Machine.execReserved07 s
  | .reserved08 op => Sys2Proof.Machine.execReserved08 op s
  | .reserved10 op => Sys2Proof.Machine.execReserved10 op s
  | .reserved20 op => Sys2Proof.Machine.execReserved20 op s
  | .reserved40 op => Sys2Proof.Machine.execReserved40 op s
  | .reserved80 op => Sys2Proof.Machine.execReserved80 op s
  | .u16 wo d => Sys2Proof.Machine.execU16 wo d s
  | .f32Abcd d => Sys2Proof.Machine.execF32Abcd d s
  | .f32Badc d => Sys2Proof.Machine.execF32Badc d s
  | .f32Cdab d => Sys2Proof.Machine.execF32Cdab d s
  | .f32Dcba d => Sys2Proof.Machine.execF32Dcba d s
  | .f32Reserved wo d => Sys2Proof.Machine.execF32Reserved wo d s
  | .raw dtype wo d => Sys2Proof.Machine.execRaw dtype wo d s

end Sys2Proof.Machine
end

