-- ==== Sys2Proof/Machine/Step.lean ====
section
/-! DEFINITION. One step of PMB-CORE with its host: the next turn of the schedule, or, when the schedule is empty, the
engine's turn (R17, R19, R113, R123). -/

namespace Sys2Proof.Machine

/-- The engine's turn: completion, enabled exactly when ENG_STATE = BUSY (R113); while IDLE the block keeps all its state
(R224). -/
def engineStep (s : State) : Host.Outcome State Fault Refusal :=
  match s.engine.state with
  | .busy => exec s.command s
  | .idle => .next s

/-- One step. With no turn left the engine has its turn, which is the fairness of R123 and R234 (log 2). -/
def step (s : State) : Host.Outcome State Fault Refusal :=
  match s.sched with
  | [] => engineStep s
  | .engine :: rest => engineStep { s with sched := rest }
  | .read addr :: rest => .next (State.busRead addr { s with sched := rest })
  | .write addr v :: rest => .next (State.busWrite addr v { s with sched := rest })
  | .reset :: rest => .next (State.resetEvent { s with sched := rest })

/-- The machine about to run the table word: a CMD word is accepted and a DEF pair is the whole list of the MAP that the
next turn completes (log 5). -/
def State.withFetchWord (s : State) (nbits w : Nat) : State :=
  match formatOfWidth nbits with
  | .command => s.placeCommand (BitVec.ofNat 32 w)
  | .definition => s.placeDefinition (BitVec.ofNat 32 w) (BitVec.ofNat 32 (w / 2 ^ 32))

end Sys2Proof.Machine
end

