-- ==== Sys2Proof/Machine/Listing.lean ====
section
/-! DEFINITION. The spec's listing notation for host programs: the operations of R104 and the pseudo-instructions of R105 and
R106, each expanded into the turns it stands for. -/

namespace Sys2Proof.Machine

/-- The datatype of a DEF pseudo-instruction, with its scale (R106). -/
inductive DefType where
  /-- `u16`, m, s. -/
  | u16 (m : Half) (s : BitVec 5)
  /-- `raw` (DTYPE 10), m, s. -/
  | raw (m : Half) (s : BitVec 5)
  /-- `raw3` (DTYPE 11), m, s. -/
  | raw3 (m : Half) (s : BitVec 5)
  /-- `f32.abcd` to `f32.rsv7`: DTYPE 01 with the WO given, and f. -/
  | f32 (wo : BitVec 3) (f : Word)
deriving DecidableEq, Repr

/-- One line of a host program. -/
inductive Listing where
  /-- `WR off, val` (R104). -/
  | wr (off : Nat) (v : Word)
  /-- `RD off` (R104). -/
  | rd (off : Nat)
  /-- A command's mnemonic (R105): `WR 0x0000, <opcode>`. -/
  | command (op : Byte)
  /-- `WAIT` whose first `polls` reads of STATUS find BUSY = 1 (R105): the number is the command's LATENCY (R234). -/
  | wait (polls : Nat)
  /-- `FRAME b0, b1, …` (R105). -/
  | frame (bytes : List Byte)
  /-- `ARGS a0, a1, a2` (R105). -/
  | args (a0 a1 a2 : Word)
  /-- `UNIT u, dev=d` (R105). -/
  | unit (u d : Byte)
  /-- `UNIT u, off` (R105). -/
  | unitOff (u : Byte)
  /-- `FUNC k, unit=u, fc=f, base=b, count=c` (R105). -/
  | func (k : Fin 64) (u f b : Byte) (c : BitVec 9)
  /-- `FUNC k, off` (R105). -/
  | funcOff (k : Fin 64)
  /-- `DEF j, slot=s, idx=i, <type>, <scale>` (R106). -/
  | define (j slot idx : Byte) (ty : DefType)
deriving DecidableEq, Repr

/-- `MemWrite(BASE + off, 4, v)` (R104). -/
def wr (off : Nat) (v : Word) : Turn := .write (Config.base + off) v

/-- `MemRead(BASE + off, 4)` (R104). -/
def rd (off : Nat) : Turn := .read (Config.base + off)

/-- Byte i of a frame, taking every byte past its end as 0 (R105). -/
def frameByte (bytes : List Byte) (i : Nat) : Byte := bytes[i]?.getD 0

/-- FB word w of a frame (R105). -/
def frameWord (bytes : List Byte) (w : Nat) : Word :=
  frameByte bytes (4 * w + 3) ++ frameByte bytes (4 * w + 2) ++ frameByte bytes (4 * w + 1) ++ frameByte bytes (4 * w)

/-- DTYPE of a DEF pseudo-instruction (R106). -/
def DefType.dtype : DefType → BitVec 2
  | .u16 _ _ => 0b00
  | .f32 _ _ => 0b01
  | .raw _ _ => 0b10
  | .raw3 _ _ => 0b11

/-- DEF_HI of a DEF pseudo-instruction (R106). -/
def DefType.hi : DefType → Word
  | .u16 m _ | .raw m _ | .raw3 m _ => m.setWidth 32
  | .f32 _ f => f

/-- DEF_LO of a DEF pseudo-instruction: (S << 24) | (DTYPE << 16) | (s << 8) | i, or with WO << 18 for f32 (R106). -/
def DefType.lo (slot idx : Byte) : DefType → Word
  | .u16 _ s => (s.setWidth 32 <<< 24) ||| (slot.setWidth 32 <<< 8) ||| idx.setWidth 32
  | .raw _ s => (s.setWidth 32 <<< 24) ||| (0b10#32 <<< 16) ||| (slot.setWidth 32 <<< 8) ||| idx.setWidth 32
  | .raw3 _ s => (s.setWidth 32 <<< 24) ||| (0b11#32 <<< 16) ||| (slot.setWidth 32 <<< 8) ||| idx.setWidth 32
  | .f32 wo _ => (wo.setWidth 32 <<< 18) ||| (0b01#32 <<< 16) ||| (slot.setWidth 32 <<< 8) ||| idx.setWidth 32

/-- The bus accesses a line stands for, in order (R104 to R106). WAIT stands for its polls, the completion that ends them
and the read that sees BUSY = 0. -/
def Listing.expand : Listing → List Turn
  | .wr off v => [Machine.wr off v]
  | .rd off => [Machine.rd off]
  | .command op => [Machine.wr 0x0000 (commandWord op)]
  | .wait polls => List.replicate polls (Machine.rd 0x0004) ++ [.engine, Machine.rd 0x0004]
  | .frame bytes =>
    (List.range ((bytes.length + 3) / 4)).map (fun w => Machine.wr (0x0400 + 4 * w) (frameWord bytes w))
      ++ [Machine.wr 0x0008 (BitVec.ofNat 32 bytes.length)]
  | .args a0 a1 a2 => [Machine.wr 0x000C a0, Machine.wr 0x0010 a1, Machine.wr 0x0014 a2]
  | .unit u d => [Machine.wr (0x1000 + 4 * u.toNat) (0x100#32 ||| d.setWidth 32)]
  | .unitOff u => [Machine.wr (0x1000 + 4 * u.toNat) 0]
  | .func k u f b c =>
    [Machine.wr (0x1404 + 8 * k) ((c.setWidth 32 <<< 16) ||| b.setWidth 32),
     Machine.wr (0x1400 + 8 * k) (0x10000#32 ||| (f.setWidth 32 <<< 8) ||| u.setWidth 32)]
  | .funcOff k => [Machine.wr (0x1400 + 8 * k) 0]
  | .define j slot idx ty =>
    [Machine.wr (0x2004 + 8 * j.toNat) ty.hi, Machine.wr (0x2000 + 8 * j.toNat) (ty.lo slot idx)]

/-- The turns of a whole host program. -/
def expandProgram (p : List Listing) : List Turn := p.flatMap Listing.expand

end Sys2Proof.Machine
end

