-- ==== Sys2Proof/Safety.lean ====
section
/-! DEFINITION. What counts as a safe run, in the terms the statements use: the invariant of the machine, the values the
rules describe apart from how the machine computes them, and agreement of two states on what a command may read. -/

namespace Sys2Proof.Machine

/-- The frame state is consistent (R27, R28, R137): a valid frame has REG_COUNT = BYTE_COUNT / 2 with BYTE_COUNT even and
CRC_OK = 1, an invalid one is all 0 but for WARN_LEN, and no REGS entry at or past REG_COUNT is nonzero. -/
structure Frame.Consistent (f : Frame) : Prop where
  regCount : f.frame0.valid = true → f.frame0.byteCount.toNat = 2 * f.frame0.regCount.toNat
  header : f.frame0.valid = false → f.frame0 = .zero
  crcRaw : f.frame0.valid = false → f.frame1.crcRaw = 0
  crcOk : f.frame1.crcOk = f.frame0.valid
  past : ∀ i (h : i < 128), f.frame0.regCount.toNat ≤ i → f.regs[i] = 0

/-- The map state is consistent (R29, R30, R158, R159): an invalid slot holds 0, NVALID counts the valid slots, slots are
valid only after a function hit, and a function hit comes only after a unit hit. -/
structure Mapping.Consistent (m : Mapping) : Prop where
  slots : ∀ k (h : k < 256), m.slotInfo[k].valid = false → m.value[k] = 0 ∧ m.slotInfo[k].tag = .int
  count : m.info.nvalid = countValid m.slotInfo
  function : m.info.funcHit = false → m.info.nvalid = 0
  device : m.info.devValid = false → m.info.funcHit = false ∧ m.info.deviceId = 0

/-- The invariant of PMB-CORE. Every step keeps it, and it holds after reset. -/
structure State.Inv (s : State) : Prop where
  /-- FB is in its canonical form. -/
  memory : s.inputs.fb.wf = true
  frame : s.frame.Consistent
  mapping : s.mapping.Consistent
  /-- A mapping with a device belongs to a valid frame (R140). -/
  mapped : s.mapping.info.devValid = true → s.frame.frame0.valid = true
  /-- DONE = 1 only while IDLE (R34). -/
  done : s.status.done = true → s.engine.state = .idle
  /-- IDLE with DONE = 0 is the state before any command has completed (R34, R228): nothing a command writes has been
  written. -/
  fresh : s.status.done = false → s.engine.state = .idle →
    s.status.err = .ok ∧ s.status.lastOp = 0 ∧ s.frame = .cleared false ∧ s.mapping = .cleared ∧ s.result = 0
  /-- There is no DCUR between commands (R46). -/
  cursor : s.engine.dcur = none

/-- What one DM entry stores under the current frame, read from the two words by the fields of R91 and R92 and from FRAME0 and
REGS: nothing where it is skipped (R153, R156), else the slot, the value and the tag (R154, R155, R157). -/
def State.storeOf (s : State) (e : DefEntry) : Option (Byte × Word × Tag) :=
  let idx := (e.lo.extractLsb' 0 8).toNat
  let slot := e.lo.extractLsb' 8 8
  let n := s.frame.frame0.regCount.toNat
  let r (i : Nat) : Half := s.frame.regs[i]?.getD 0
  let scaled := fxscale (r idx) (e.hi.extractLsb' 0 16) (e.lo.extractLsb' 24 5)
  if n ≤ idx then none
  else if e.lo.getLsbD 17 then some (slot, scaled, .raw)
  else if e.lo.getLsbD 16 then
    if n ≤ idx + 1 then none
    else some (slot, fmul32 (f32recon (r idx) (r (idx + 1)) (e.lo.extractLsb' 18 3)) e.hi, .f32)
  else some (slot, scaled, .int)

/-- The DM entries of a list in list order (R152). -/
def State.listEntries (s : State) (base count : Nat) : List DefEntry :=
  (List.range count).map fun j => s.tables.dm[base + j]?.getD ⟨0, 0⟩

/-- The last store to a slot that the list makes, if any (R158). -/
def State.lastStore (s : State) (base count : Nat) (slot : Byte) : Option (Byte × Word × Tag) :=
  ((s.listEntries base count).filterMap s.storeOf).reverse.find? fun x => x.1 == slot

/-- A function entry is valid and its key is the unit and the function of the current frame (R150). -/
abbrev State.entryMatches (s : State) (k : Fin 64) : Prop :=
  s.tables.mt[k].valid = true ∧ s.tables.mt[k].unit = s.frame.frame0.unitId ∧ s.tables.mt[k].func = s.frame.frame0.func

/-- A function entry is the one the lookup of R150 takes: it matches and no entry of a lower index does. -/
def State.leastHit (s : State) (k : Fin 64) : Prop := s.entryMatches k ∧ ∀ j : Fin 64, j < k → ¬s.entryMatches j

/-- No entry of the function table matches the current frame (R150). -/
def State.functionMiss (s : State) : Prop := ∀ j : Fin 64, ¬s.entryMatches j

/-- The value of a binary32 encoding that is no NaN, in units of 2^−149, an infinity standing at ±2^128 (R185): with the
exponent e of x[30:23] and the fraction f of x[22:0] it is ± f when e = 0, and ± (2^23 + f) · 2^(e − 1) otherwise. -/
def f32Value (x : Word) : Int :=
  let e := (x.extractLsb' 23 8).toNat
  let f := (x.extractLsb' 0 23).toNat
  (if x.getLsbD 31 then -1 else 1) * ((if e = 0 then f else (2 ^ 23 + f) * 2 ^ (e - 1) : Nat) : Int)

/-- A binary32 encoding of a finite nonzero value (R13). -/
def isFiniteNonzero (x : Word) : Bool := !isNaN x && !isInf x && !isZero x

/-- The bytes of FB that a DECODE reads (R141): the header, the data slice and the last two of the payload, none of them at
index FLEN or beyond. -/
def State.decodeReads (s : State) (a : Nat) : Prop :=
  let l := s.inputs.flen.toNat
  a < l ∧ (a < 3 ∨ (3 ≤ a ∧ a < 3 + (s.fbByte 2).toNat) ∨ a + 2 = l ∨ a + 1 = l)

/-- The bits of each word of the window that hold a field; every other bit reads 0 (R48). -/
def Loc.fieldBits : Loc → Word
  | .cmd | .reserved => 0
  | .status => 0x0003FFF3
  | .frame1 => 0x0003FFFF
  | .mapInfo => 0x01FF03FF
  | .regs _ => 0x0000FFFF
  | .slotInfo _ => 0x00000007
  | .flen | .ut _ => 0x000001FF
  | .mtKey _ => 0x0001FFFF
  | .mtList _ => 0x01FF00FF
  | .arg0 | .arg1 | .arg2 | .result | .frame0 | .fb _ | .value _ | .defLo _ | .defHi _ => 0xFFFFFFFF

/-- The state after a completion that ends with the error code `e` and writes nothing else (R113). DCUR ends with the
command (R46). -/
def State.completed (e : ErrCode) (s : State) : State :=
  { s with
    status := { s.status with done := true, err := e, lastOp := s.engine.op }
    engine := { s.engine with state := .idle, dcur := none } }

/-- The state after a definition that stores: VALUE, TAG and VALID of its slot (R158) and the cursor (R31), nothing else. -/
def State.stored (slot : Byte) (v : Word) (tag : Tag) (s : State) : State :=
  { s with
    mapping := { s.mapping with
      value := s.mapping.value.set slot.toNat v slot.isLt
      slotInfo := s.mapping.slotInfo.set slot.toNat ⟨true, tag⟩ slot.isLt }
    engine := { s.engine with dcur := s.engine.dcur.map (· + 1) } }

/-- The state after a definition that stores nothing: the cursor's step (R31, R153, R156). -/
def State.skipped (s : State) : State := { s with engine := { s.engine with dcur := s.engine.dcur.map (· + 1) } }

/-- Every value that R225 gives, in the words the host reads where there is one. -/
structure State.AtReset (s : State) : Prop where
  engine : s.engine.state = .idle
  cursor : s.engine.dcur = none
  status : s.readLoc .status = 0
  flen : s.inputs.flen = 0
  args : s.inputs.arg0 = 0 ∧ s.inputs.arg1 = 0 ∧ s.inputs.arg2 = 0
  result : s.result = 0
  frame0 : s.readLoc .frame0 = 0
  frame1 : s.readLoc .frame1 = 0
  regs : ∀ i (h : i < 128), s.frame.regs[i] = 0
  mapInfo : s.readLoc .mapInfo = 0
  value : ∀ k (h : k < 256), s.mapping.value[k] = 0
  slotInfo : ∀ k : Fin 256, s.readLoc (.slotInfo k) = 0
  units : ∀ u (h : u < 256), s.tables.ut[u].valid = false
  functions : ∀ k (h : k < 64), s.tables.mt[k].valid = false

/-- The bytes of the frame of R143: unit id, function code, byte count, the registers big-endian, two CRC bytes. -/
def frameOf (u f : Byte) (rs : List Half) (c0 c1 : Byte) : List Byte :=
  [u, f, BitVec.ofNat 8 (2 * rs.length)] ++ rs.flatMap (fun r => [r.extractLsb' 8 8, r.extractLsb' 0 8]) ++ [c0, c1]

end Sys2Proof.Machine
end

