-- ==== Sys2Proof/Certificates/Slice0/Obligations.lean ====
section
/-! DEFINITION. The statements about PMB-CORE. Each docstring names the rules it formalises. A command's completion
statement gives its whole next state, so it is the command's frame as well. `State.completed` is what every completion writes
(R113); it also ends DCUR, which is no state between commands (R46). -/

open Sys2Proof Sys2Proof.Machine

/-! Reset and the machine as a whole. -/

/-- R225: the state after the first reset and the state after a reset event at any time hold every value of the table,
whatever was running; the unspecified rows are constrained by nothing here. -/
def Obligations.ResetGivesTheTableValues : Prop :=
  State.reset.AtReset ∧
    ∀ (s : State) (rest : List Turn), s.sched = .reset :: rest →
      ∃ t, step s = .next t ∧ t.AtReset

/-- The invariant holds after reset. -/
def Obligations.ResetMeetsTheInvariant : Prop := State.reset.Inv

/-- Every step keeps the invariant: the canonical frame buffer, the relations of the frame and map state (R27 to R30, R137,
R140, R159), DONE against BUSY (R34, R228) and no DCUR between commands (R46). -/
def Obligations.EveryStepKeepsTheInvariant : Prop :=
  ∀ s t : State, s.Inv → step s = .next t → t.Inv

/-- R113, R200: every step answers a next state; there is no fault and no refusal. That a step takes one turn of the
schedule, a reset included, and leaves the turns after it is the model's choice (log 2, log 16). -/
def Obligations.EveryStepAnswersANextState : Prop := ∀ s : State, ∃ t, step s = .next t ∧ t.sched = s.sched.tail

/-- R113, R17: the engine's turn while BUSY runs the instruction that the latched opcode's word decodes to, on the state
without that turn; while IDLE the turn changes nothing. An empty schedule is an engine's turn (the model's choice, log 2). -/
def Obligations.StepRunsTheDecodedCommand : Prop :=
  ∀ (s : State) (i : Instr) (rest : List Turn) (ws : List Word),
    decode .command (commandWord s.engine.op :: ws) = .ok (i, ws) →
      (s.sched = .engine :: rest → s.engine.state = .busy → step s = exec i { s with sched := rest }) ∧
      (s.sched = [] → s.engine.state = .busy → step s = exec i s) ∧
      (s.sched = .engine :: rest → s.engine.state = .idle → step s = .next { s with sched := rest }) ∧
      (s.sched = [] → s.engine.state = .idle → step s = .next s)

/-- R146, R152, R31: MAP's loop starts with the cursor at DEF_BASE; over n + 1 definitions it runs the instruction that the
two words of DM at the cursor decode to, which moves the cursor by 1, and goes on with n from the state that gives; over none
it changes nothing. While the list stays in DM the cursor ends n further on, so at DEF_BASE + DEF_COUNT it has not wrapped. -/
def Obligations.MapLoopRunsTheDecodedDefinition : Prop :=
  (∀ (dev : Byte) (e : FuncEntry) (s : State), ∃ c, (s.startList dev e).engine.dcur = some c ∧ c.toNat = e.base.toNat) ∧
  (∀ s : State, runDefinitions 0 s = s) ∧
  (∀ (n : Nat) (s : State) (i : Instr) (c : BitVec 9) (h : c.toNat < 256), s.engine.dcur = some c →
    decode .definition [s.tables.dm[c.toNat].lo, s.tables.dm[c.toNat].hi] = .ok (i, []) →
      ∃ t, exec i s = .next t ∧ t.engine.dcur = some (c + 1) ∧ runDefinitions (n + 1) s = runDefinitions n t) ∧
  ∀ (n : Nat) (s : State) (c : BitVec 9), s.engine.dcur = some c → c.toNat + n ≤ 256 →
    ∃ c', (runDefinitions n s).engine.dcur = some c' ∧ c'.toNat = c.toNat + n

/-- R234, R124: an accepted command completes, with DONE = 1 and its opcode in LAST_OP. The bound, that with no reset among
the turns to come it has completed after at most one step more than there are turns, is that of the model's schedule (log 2). -/
def Obligations.AcceptedCommandCompletes : Prop :=
  ∀ s : State, s.engine.state = .busy → .reset ∉ s.sched →
    ∃ k t, k ≤ s.sched.length + 1 ∧ Sys2Proof.core.run k s = .next t ∧
      t.engine.state = .idle ∧ t.status.done = true ∧ t.status.lastOp = s.engine.op

/-- R76, R117, R118: while a command runs, no host access changes what it reads, what it has committed so far, or the
command itself. -/
def Obligations.HostAccessKeepsARunningCommand : Prop :=
  ∀ (s t : State) (turn : Turn) (rest : List Turn), s.engine.state = .busy → s.sched = turn :: rest →
    turn ≠ .engine → turn ≠ .reset → step s = .next t →
      t.inputs = s.inputs ∧ t.tables = s.tables ∧ t.frame = s.frame ∧ t.mapping = s.mapping ∧ t.result = s.result ∧
        t.engine = s.engine ∧ t.epoch = s.epoch ∧ t.sched = rest ∧ t.status.done = s.status.done ∧
        t.status.err = s.status.err ∧ t.status.lastOp = s.status.lastOp

/-- R111, R33: only a host write to CMD moves the engine from IDLE to BUSY, and only the engine's turn or a reset moves it
back. That an empty schedule is the engine's turn is the model's choice (log 2). -/
def Obligations.OnlyCommandWritesStartTheEngine : Prop :=
  ∀ s t : State, step s = .next t →
    (s.engine.state = .idle → t.engine.state = .busy →
      ∃ addr v rest, s.sched = .write addr v :: rest ∧ locateAddr addr = some .cmd) ∧
    (s.engine.state = .busy → t.engine.state = .idle →
      s.sched = [] ∨ (∃ rest, s.sched = .engine :: rest) ∨ ∃ rest, s.sched = .reset :: rest)

/-- R209, R37, R38: a set OVERRUN or BUSYWR stays set over every step but a reset and a host write of 1 to its STATUS
bit. -/
def Obligations.StickyFlagsStayUntilWrittenOne : Prop :=
  ∀ s t : State, step s = .next t → (∀ rest, s.sched ≠ .reset :: rest) →
    (s.status.overrun = true → t.status.overrun = false →
      ∃ addr v rest, s.sched = .write addr v :: rest ∧ locateAddr addr = some .status ∧ v.getLsbD 16 = true) ∧
    (s.status.busyWr = true → t.status.busyWr = false →
      ∃ addr v rest, s.sched = .write addr v :: rest ∧ locateAddr addr = some .status ∧ v.getLsbD 17 = true)

/-- R121: no instruction writes the inputs or the configuration, and each command writes only its row of the table apart
from the STATUS fields of R113. -/
def Obligations.CommandsWriteOnlyTheirWriteSet : Prop :=
  ∀ (i : Instr) (s t : State), exec i s = .next t →
    t.inputs = s.inputs ∧ t.tables = s.tables ∧ t.epoch = s.epoch ∧ t.sched = s.sched ∧ t.rdata = s.rdata ∧
    t.status.overrun = s.status.overrun ∧ t.status.busyWr = s.status.busyWr ∧
    (i ≠ .f32 → i ≠ .scale → i ≠ .fmul → t.result = s.result) ∧
    (i ≠ .decode → i ≠ .decmap → t.frame = s.frame) ∧
    (i.format = .command → i ≠ .decode → i ≠ .map → i ≠ .decmap → t.mapping = s.mapping) ∧
    (i = .decode → t.mapping = .cleared)

/-- R120, R216: a command's outcome does not depend on the ERR, LAST_OP and DONE that earlier commands left. -/
def Obligations.EarlierErrorsDoNotAlterACommand : Prop :=
  ∀ (i : Instr) (s : State) (e : ErrCode) (op : Byte) (d : Bool), i.format = .command →
    exec i { s with status := { s.status with err := e, lastOp := op, done := d } } = exec i s

/-! Encodings. -/

/-- Decoding the words of a well-formed instruction gives it back, every operand at every value, with the words after it
untouched. -/
def Obligations.DecodeOfEncodeIsTheInstruction : Prop :=
  ∀ (i : Instr) (rest : List Word), i.wf = true → decode i.format (encode i ++ rest) = .ok (i, rest)

/-- R108: every pair of words is a definition, and encoding it gives the two words back, so no bit of either is dropped. -/
def Obligations.EncodeOfADefinitionIsItsWords : Prop :=
  ∀ lo hi : Word, (decodeDefinition lo hi).format = .definition ∧ (decodeDefinition lo hi).wf = true ∧
    encode (decodeDefinition lo hi) = [lo, hi]

/-- R88: every CMD word is a command, whose encoding keeps bits [7:0] and has 0 in the ignored bits. -/
def Obligations.EncodeOfACommandKeepsItsOpcode : Prop :=
  ∀ v : Word, (decodeCommand v).format = .command ∧ (decodeCommand v).wf = true ∧
    encode (decodeCommand v) = [v &&& 0xFF#32]

/-- R89: every value of CMD[7:0] selects exactly one row of the opcode table, and it is the row of the instruction that
the decoder reads. -/
def Obligations.EveryOpcodeSelectsOneRow : Prop :=
  ∀ op : Byte, (commandRows.filter fun r => r.holds (commandWord op)).map OpcodeRow.mnemonic
    = [(decodeCommand (commandWord op)).mnemonic]

/-- R93, R94, R108: every DEF_LO selects exactly one row of the opcode table, and it is the row of the instruction that the
decoder reads. -/
def Obligations.EveryDefinitionSelectsOneRow : Prop :=
  ∀ lo hi : Word, (definitionRows.filter fun r => r.holds lo).map OpcodeRow.mnemonic
    = [(decodeDefinition lo hi).mnemonic]

/-- Words written out from the encodings of R89, R91 and R94 decode to the instructions they stand for. -/
def Obligations.WrittenOutWordsDecode : Prop :=
  decode .command [0x00000003] = .ok (.decmap, []) ∧
  decode .command [0xABCDEF06] = .ok (.fmul, []) ∧
  decode .command [0x0000000B] = .ok (.reserved08 0x0B, []) ∧
  decode .definition [0x10000000, 0x0000199A] = .ok (.u16 0 ⟨0, 0, 16, 0, 0, 0x0000199A⟩, []) ∧
  decode .definition [0x00090A00, 0x40000000] = .ok (.f32Cdab ⟨0, 10, 0, 0, 0, 0x40000000⟩, []) ∧
  decode .definition [0x00150A01, 0x3F800000] = .ok (.f32Reserved 0b101 ⟨1, 10, 0, 0, 0, 0x3F800000⟩, []) ∧
  decode .definition [0x00020D02, 0x00000001] = .ok (.raw 0b10 0 ⟨2, 13, 0, 0, 0, 1⟩, [])

/-! The commands that compute nothing, and the direct commands. -/

/-- R114: a NOP changes nothing but ERR = 0, LAST_OP, DONE and BUSY; OVERRUN and BUSYWR stay. -/
def Obligations.NopOnlyCompletes : Prop :=
  ∀ s : State, exec .nop s = .next (s.completed .ok) ∧
    (s.engine.op = 0x00#8 → ∃ t, exec .nop s = .next t ∧ t.status = { s.status with done := true, err := .ok, lastOp := 0x00#8 })

/-- R115, R90: a reserved opcode completes with ERR = BAD_CMD and LAST_OP = the opcode, and changes nothing else. -/
def Obligations.ReservedOpcodesCompleteWithBadCmd : Prop :=
  ∀ (op : Byte) (s : State),
    exec .reserved07 s = .next (s.completed .badCmd) ∧
    exec (.reserved08 op) s = .next (s.completed .badCmd) ∧
    exec (.reserved10 op) s = .next (s.completed .badCmd) ∧
    exec (.reserved20 op) s = .next (s.completed .badCmd) ∧
    exec (.reserved40 op) s = .next (s.completed .badCmd) ∧
    exec (.reserved80 op) s = .next (s.completed .badCmd) ∧
    (7 ≤ s.engine.op.toNat → exec s.command s = .next (s.completed .badCmd) ∧ (s.completed .badCmd).status.lastOp = s.engine.op)

/-- R179: F32 writes the reconstruction of ARG0[15:0] and ARG1[15:0] in the order ARG2[2:0] to RESULT, with ERR = 0. -/
def Obligations.F32CommandWritesTheReconstruction : Prop :=
  ∀ s : State,
    let hi := s.inputs.arg0.extractLsb' 0 16
    let lo := s.inputs.arg1.extractLsb' 0 16
    let wo := s.inputs.arg2.extractLsb' 0 3
    exec .f32 s = .next (State.completed .ok { s with result := f32recon hi lo wo })

/-- R195: SCALE writes the scaling of ARG0[15:0] by ARG1[15:0] and ARG2[4:0] to RESULT, with ERR = 0; and the corner cases
that the rule works out. -/
def Obligations.ScaleCommandWritesTheScaledValue : Prop :=
  (∀ s : State,
    let r := s.inputs.arg0.extractLsb' 0 16
    let m := s.inputs.arg1.extractLsb' 0 16
    let sh := s.inputs.arg2.extractLsb' 0 5
    exec .scale s = .next (State.completed .ok { s with result := fxscale r m sh })) ∧
  fxscale 0xFFFF 0x7FFF 0 = 0x7FFE8001 ∧ fxscale 0xFFFF 0x8000 0 = 0x80008000 ∧ fxscale 0xFFFF 0x8000 31 = 0xFFFFFFFF

/-- R189: FMUL writes the product of ARG0 by the scale ARG1 to RESULT, with ERR = 0; and the corner cases that the rule
works out. -/
def Obligations.FmulCommandWritesTheProduct : Prop :=
  (∀ s : State, exec .fmul s = .next (State.completed .ok { s with result := fmul32 s.inputs.arg0 s.inputs.arg1 })) ∧
  (∀ x : Word, fmul32 x 0x3F800000 = x) ∧ fmul32 0x7F800001 0x40000000 = 0x7FC00001 ∧
  ∀ x y : Word, isInf x = true → isZero y = true → fmul32 x y = 0x7FC00000

/-! DECODE. -/

/-- R127, R129, R130, R131, R139, R211: the three errors of DECODE in the order of their checks. On each path every field of the
frame state is 0 but WARN_LEN (0 when the frame is too short, else FLEN ≠ N + 5), the map state is cleared (every field of it 0),
and nothing else is changed. -/
def Obligations.DecodeErrorsClearTheFrame : Prop :=
  (Mapping.cleared.info.deviceId = 0 ∧ Mapping.cleared.info.devValid = false ∧ Mapping.cleared.info.funcHit = false ∧
    Mapping.cleared.info.nvalid = 0 ∧
    ∀ k (h : k < 256), Mapping.cleared.value[k] = 0 ∧ Mapping.cleared.slotInfo[k].valid = false ∧
      Mapping.cleared.slotInfo[k].tag = .int) ∧
  ∀ s : State,
    let l := s.inputs.flen.toNat
    let n := (s.fbByte 2).toNat
    ∃ f : Frame,
      (f.frame0.unitId = 0 ∧ f.frame0.func = 0 ∧ f.frame0.byteCount = 0 ∧ f.frame0.regCount = 0 ∧ f.frame0.valid = false ∧
        f.frame1.crcRaw = 0 ∧ f.frame1.crcOk = false ∧ (f.frame1.warnLen = true ↔ 5 ≤ l ∧ l ≠ n + 5) ∧
        ∀ i (h : i < 128), f.regs[i] = 0) ∧
      (l < 5 → exec .decode s = .next (State.completed .frameTooShort { s with frame := f, mapping := .cleared })) ∧
      (5 ≤ l → n % 2 = 1 →
        exec .decode s = .next (State.completed .oddByteCount { s with frame := f, mapping := .cleared })) ∧
      (5 ≤ l → n % 2 = 0 → l < 3 + n →
        exec .decode s = .next (State.completed .dataShort { s with frame := f, mapping := .cleared }))

/-- R126, R132 to R138, R140: on success DECODE writes the header, the register words (the first byte the more
significant), 0 to every later REGS entry, the last two bytes of the payload as CRC_RAW, CRC_OK = 1, WARN_LEN and FRAME_VALID,
clears the map state, and changes nothing else. -/
def Obligations.DecodeExtractsTheFrame : Prop :=
  ∀ s : State, 5 ≤ s.inputs.flen.toNat → (s.fbByte 2).toNat % 2 = 0 → 3 + (s.fbByte 2).toNat ≤ s.inputs.flen.toNat →
    ∃ f : Frame, exec .decode s = .next (State.completed .ok { s with frame := f, mapping := .cleared }) ∧
      f.frame0.unitId = s.fbByte 0 ∧ f.frame0.func = s.fbByte 1 ∧ f.frame0.byteCount = s.fbByte 2 ∧
      f.frame0.regCount.toNat = (s.fbByte 2).toNat / 2 ∧ f.frame0.valid = true ∧
      f.frame1.crcRaw = s.fbByte (s.inputs.flen.toNat - 1) ++ s.fbByte (s.inputs.flen.toNat - 2) ∧
      f.frame1.crcOk = true ∧ (f.frame1.warnLen = true ↔ s.inputs.flen.toNat ≠ (s.fbByte 2).toNat + 5) ∧
      ∀ i (h : i < 128), f.regs[i] =
        if i < (s.fbByte 2).toNat / 2 then s.fbByte (3 + 2 * i) ++ s.fbByte (4 + 2 * i) else 0

/-- R143: decoding the frame that carries any list of up to 127 register words gives the list back. -/
def Obligations.DecodeReturnsTheEncodedRegisters : Prop :=
  ∀ (u f c0 c1 : Byte) (rs : List Half) (s : State), rs.length ≤ 127 → s.inputs.flen.toNat = 2 * rs.length + 5 →
    (∀ a b, (frameOf u f rs c0 c1)[a]? = some b → s.fbByte a = b) →
      ∃ t, exec .decode s = .next t ∧ t.status.err = .ok ∧ t.frame.frame1.warnLen = false ∧
        t.frame.frame0.unitId = u ∧ t.frame.frame0.func = f ∧ t.frame.frame0.regCount.toNat = rs.length ∧
        ∀ i (h : i < 128) r, rs[i]? = some r → t.frame.regs[i] = r

/-- R141, R127, R16: two states that agree on FLEN and on the bytes DECODE reads (none when FLEN < 5) get the same frame, map
state and error, whatever else they hold. -/
def Obligations.DecodeReadsOnlyItsSlice : Prop :=
  ∀ s t s' t' : State, s.inputs.flen = t.inputs.flen →
    (5 ≤ s.inputs.flen.toNat → ∀ a, s.decodeReads a → s.fbByte a = t.fbByte a) →
    exec .decode s = .next s' → exec .decode t = .next t' →
      s'.frame = t'.frame ∧ s'.mapping = t'.mapping ∧ s'.status.err = t'.status.err

/-! MAP and DECMAP. -/

/-- R148: without a valid frame MAP raises NO_FRAME with an empty mapping and changes nothing else. -/
def Obligations.MapWithoutAFrameRaisesNoFrame : Prop :=
  ∀ s : State, s.frame.frame0.valid = false →
    exec .map s = .next (State.completed .noFrame { s with mapping := .cleared })

/-- R149: an unconfigured unit gives an empty mapping with DEV_VALID = 0 and no error. -/
def Obligations.MapOfAnUnknownUnitIsEmpty : Prop :=
  ∀ s : State, s.frame.frame0.valid = true → s.tables.ut[s.frame.frame0.unitId.toNat].valid = false →
    exec .map s = .next (State.completed .ok { s with mapping := .cleared })

/-- R150: an unknown function of a configured unit gives an empty mapping with the unit's DEVICE_ID and no error. -/
def Obligations.MapOfAnUnknownFunctionNamesTheDevice : Prop :=
  ∀ s : State, s.frame.frame0.valid = true → s.tables.ut[s.frame.frame0.unitId.toNat].valid = true → s.functionMiss →
    exec .map s = .next (State.completed .ok { s with mapping :=
      { Mapping.cleared with info := ⟨s.tables.ut[s.frame.frame0.unitId.toNat].deviceId, true, false, 0⟩ } })

/-- R151: a list that reaches past DM raises CFG_ERR with MAPINFO and every slot 0 and changes nothing else; an empty list is
valid, with FUNC_HIT = 1 and NVALID = 0. -/
def Obligations.MapOfAListPastTheEndRaisesCfgErr : Prop :=
  ∀ (s : State) (k : Fin 64), s.frame.frame0.valid = true →
    s.tables.ut[s.frame.frame0.unitId.toNat].valid = true → s.leastHit k →
    (256 < s.tables.mt[k].base.toNat + s.tables.mt[k].count.toNat →
      exec .map s = .next (State.completed .cfgErr { s with mapping := .cleared })) ∧
    (s.tables.mt[k].count = 0 →
      exec .map s = .next (State.completed .ok { s with
        mapping := { Mapping.cleared with info := ⟨s.tables.ut[s.frame.frame0.unitId.toNat].deviceId, true, true, 0⟩ } }))

/-- R146, R150, R152, R158: on a unit hit and a function hit (the least matching entry) with the list in range, MAP leaves in
each slot what the last definition of the list that stores to it stores, and 0 in every slot that none stores to; MAPINFO
carries the device, and only the map state changes beside the completion. -/
def Obligations.MapLeavesTheLastStoreOfEachSlot : Prop :=
  ∀ (s : State) (k : Fin 64), s.frame.frame0.valid = true →
    s.tables.ut[s.frame.frame0.unitId.toNat].valid = true → s.leastHit k →
    s.tables.mt[k].base.toNat + s.tables.mt[k].count.toNat ≤ 256 →
      ∃ m : Mapping, exec .map s = .next (State.completed .ok { s with mapping := m }) ∧
        m.info.deviceId = s.tables.ut[s.frame.frame0.unitId.toNat].deviceId ∧
        m.info.devValid = true ∧ m.info.funcHit = true ∧
        ∀ slot : Byte,
          match s.lastStore s.tables.mt[k].base.toNat s.tables.mt[k].count.toNat slot with
          | some (_, v, tag) => m.value[slot.toNat] = v ∧ m.slotInfo[slot.toNat] = ⟨true, tag⟩
          | none => m.value[slot.toNat] = 0 ∧ m.slotInfo[slot.toNat] = ⟨false, .int⟩

/-- R159: NVALID is the number of distinct slots that the list's definitions store to. -/
def Obligations.NvalidCountsDistinctSlots : Prop :=
  ∀ (s t : State) (k : Fin 64), s.frame.frame0.valid = true →
    s.tables.ut[s.frame.frame0.unitId.toNat].valid = true → s.leastHit k →
    s.tables.mt[k].base.toNat + s.tables.mt[k].count.toNat ≤ 256 → exec .map s = .next t →
      t.mapping.info.nvalid.toNat =
        ((((s.listEntries s.tables.mt[k].base.toNat s.tables.mt[k].count.toNat).filterMap s.storeOf).map
          fun x => x.1).toFinset).card

/-- R147, R16: the mapping and the error of a MAP depend only on the frame and the configuration: no earlier mapping,
result or status is read. -/
def Obligations.MapReadsOnlyFrameAndConfiguration : Prop :=
  ∀ s t s' t' : State, s.frame = t.frame → s.tables = t.tables →
    exec .map s = .next s' → exec .map t = .next t' → s'.mapping = t'.mapping ∧ s'.status.err = t'.status.err

/-- R162, R213: DECMAP ends as DECODE does when that fails, and otherwise as MAP does on the frame that DECODE left. -/
def Obligations.DecmapIsDecodeThenMap : Prop :=
  ∀ s : State, ∃ t u, exec .decode s = .next t ∧ exec .map t = .next u ∧
    (t.status.err ≠ .ok → exec .decmap s = .next t) ∧ (t.status.err = .ok → exec .decmap s = .next u)

/-- R154, R157, R161: a U16 or RAW definition whose INDEX is in range stores floor(r · M / 2^S) with its TAG and VALID in
its slot and advances the cursor; out of range it only advances the cursor. Nothing else changes, and WO has no effect. -/
def Obligations.IntegerDefinitionsStoreTheScaledRegister : Prop :=
  ∀ (s : State) (wo : BitVec 3) (dtype : BitVec 2) (d : DefOperands),
    (∀ h : d.index.toNat < 128, d.index.toNat < s.frame.frame0.regCount.toNat →
      let v := fxscale (s.frame.regs[d.index.toNat]) (d.hi.extractLsb' 0 16) d.shift
      exec (.u16 wo d) s = .next (s.stored d.slot v .int) ∧ exec (.raw dtype wo d) s = .next (s.stored d.slot v .raw)) ∧
    (s.frame.frame0.regCount.toNat ≤ d.index.toNat →
      exec (.u16 wo d) s = .next s.skipped ∧ exec (.raw dtype wo d) s = .next s.skipped)

/-- R155, R156, R172 to R176: an F32 definition whose INDEX + 1 is in range stores the product by FSCALE of the four bytes
a b c d of its two registers in the order of its row, ABCD for a reserved WO, with TAG F32 and VALID in its slot and advances the
cursor; out of range it only advances the cursor. Nothing else changes. -/
def Obligations.FloatDefinitionsStoreTheScaledFloat : Prop :=
  ∀ (s : State) (wo : BitVec 3) (d : DefOperands),
    (∀ h : d.index.toNat + 1 < 128, d.index.toNat + 1 < s.frame.frame0.regCount.toNat →
      let hi := s.frame.regs[d.index.toNat]
      let lo := s.frame.regs[d.index.toNat + 1]
      let a : Byte := hi.extractLsb' 8 8
      let b : Byte := hi.extractLsb' 0 8
      let c : Byte := lo.extractLsb' 8 8
      let e : Byte := lo.extractLsb' 0 8
      exec (.f32Abcd d) s = .next (s.stored d.slot (fmul32 (a ++ b ++ c ++ e) d.hi) .f32) ∧
      exec (.f32Badc d) s = .next (s.stored d.slot (fmul32 (b ++ a ++ e ++ c) d.hi) .f32) ∧
      exec (.f32Cdab d) s = .next (s.stored d.slot (fmul32 (c ++ e ++ a ++ b) d.hi) .f32) ∧
      exec (.f32Dcba d) s = .next (s.stored d.slot (fmul32 (e ++ c ++ b ++ a) d.hi) .f32) ∧
      ((Instr.f32Reserved wo d).wf = true →
        exec (.f32Reserved wo d) s = .next (s.stored d.slot (fmul32 (a ++ b ++ c ++ e) d.hi) .f32))) ∧
    (s.frame.frame0.regCount.toNat ≤ d.index.toNat + 1 →
      exec (.f32Abcd d) s = .next s.skipped ∧ exec (.f32Badc d) s = .next s.skipped ∧
        exec (.f32Cdab d) s = .next s.skipped ∧ exec (.f32Dcba d) s = .next s.skipped ∧
        exec (.f32Reserved wo d) s = .next s.skipped)

/-- R153: a definition of any datatype with INDEX ≥ REG_COUNT stores nothing and raises nothing, and an empty frame skips
every definition. -/
def Obligations.OutOfRangeDefinitionsAreSkipped : Prop :=
  ∀ (s : State) (i : Instr) (lo hi : Word), decodeDefinition lo hi = i →
    (s.frame.frame0.regCount.toNat ≤ (lo.extractLsb' 0 8).toNat → exec i s = .next s.skipped) ∧
    (s.frame.frame0.regCount = 0 → exec i s = .next s.skipped)

/-! The arithmetic units. -/

/-- R172 to R176: the result of each word order as 16-bit halves, bswap16 exchanging the bytes of one. -/
def Obligations.ReconstructionFollowsTheWordOrder : Prop :=
  (∀ w : Half, bswap16 w = (w.extractLsb' 0 8 : Byte) ++ (w.extractLsb' 8 8 : Byte)) ∧
  ∀ hi lo : Half, f32recon hi lo 0b000 = hi ++ lo ∧ f32recon hi lo 0b001 = bswap16 hi ++ bswap16 lo ∧
    f32recon hi lo 0b010 = lo ++ hi ∧ f32recon hi lo 0b011 = bswap16 lo ++ bswap16 hi ∧
    ∀ wo : BitVec 3, wo.getLsbD 2 = true → f32recon hi lo wo = hi ++ lo

/-- R177: the reconstruction is the word-swap path followed by the byte-swap path, and the two paths commute. -/
def Obligations.ReconstructionIsTwoSwapPaths : Prop :=
  ∀ (hi lo : Half) (wo : BitVec 3),
    let ws := wo.getLsbD 1 && !wo.getLsbD 2
    let bs := wo.getLsbD 0 && !wo.getLsbD 2
    let w0 := if ws then lo else hi
    let w1 := if ws then hi else lo
    let b0 := if bs then bswap16 hi else hi
    let b1 := if bs then bswap16 lo else lo
    f32recon hi lo wo = (if bs then bswap16 w0 ++ bswap16 w1 else w0 ++ w1) ∧
      f32recon hi lo wo = (if ws then b1 ++ b0 else b0 ++ b1)

/-- R190, R191, R192: the scaler's result, read as signed, is the exact floor of r · M / 2^S; nothing wraps. -/
def Obligations.ScalerIsTheExactFloor : Prop :=
  ∀ (r m : Half) (s : BitVec 5), (fxscale r m s).toInt = ⌊((r.toNat : ℚ) * (m.toInt : ℚ)) / 2 ^ s.toNat⌋

/-- R193, R194: the shift corners of the scaler, and its sign. -/
def Obligations.ScalerCornersAndSign : Prop :=
  ∀ (r m : Half) (s : BitVec 5),
    (fxscale r m 0).toInt = (r.toNat : Int) * m.toInt ∧
    fxscale r m 31 = (if 0 ≤ (r.toNat : Int) * m.toInt then 0 else 0xFFFFFFFF) ∧
    (m = 0 ∨ r = 0 → fxscale r m s = 0) ∧
    ((fxscale r m s).toInt < 0 ↔ m.toInt < 0 ∧ 0 < r.toNat)

/-- R180, its first case: a product by 1.0 is the other operand bit for bit, a signalling NaN included. -/
def Obligations.MultiplicationByOneReturnsTheOperand : Prop := ∀ x : Word, fmul32 x 0x3F800000 = x

/-- R181 to R184: the cases of the multiplier that come before the product of two finite nonzero values: a NaN operand, an
infinity by a zero, an infinity by a finite nonzero value, and a zero by a finite value. The classes are those of R13. -/
def Obligations.MultiplierSpecialCases : Prop :=
  (∀ x : Word, (isNaN x = true ↔ x.extractLsb' 23 8 = 0xFF#8 ∧ x.extractLsb' 0 23 ≠ 0#23) ∧
    (isInf x = true ↔ x.extractLsb' 23 8 = 0xFF#8 ∧ x.extractLsb' 0 23 = 0#23) ∧
    (isZero x = true ↔ x.extractLsb' 0 31 = 0#31) ∧
    (isFiniteNonzero x = true ↔ x.extractLsb' 23 8 ≠ 0xFF#8 ∧ x.extractLsb' 0 31 ≠ 0#31)) ∧
  ∀ x y : Word,
    (y ≠ 0x3F800000 → isNaN x = true → fmul32 x y = x ||| 0x00400000) ∧
    (y ≠ 0x3F800000 → isNaN x = false → isNaN y = true → fmul32 x y = y ||| 0x00400000) ∧
    ((isInf x = true ∧ isZero y = true) ∨ (isZero x = true ∧ isInf y = true) → fmul32 x y = 0x7FC00000) ∧
    ((isInf x = true ∧ isFiniteNonzero y = true) ∨ (isFiniteNonzero x = true ∧ isInf y = true) →
      fmul32 x y = BitVec.ofBool (x.getLsbD 31 ^^ y.getLsbD 31) ++ 0xFF#8 ++ 0#23) ∧
    (isZero x = true ∧ (isZero y = true ∨ isFiniteNonzero y = true) ∨ isZero y = true ∧ isFiniteNonzero x = true →
      fmul32 x y = BitVec.ofBool (x.getLsbD 31 ^^ y.getLsbD 31) ++ 0#31)

/-- A product of two infinities is an infinity whose sign is the exclusive or of the signs. No rule of R180 to R187 names the
case; the model reads it from test vector Q30 of 95_test_vectors.md (log 7). -/
def Obligations.InfinityByInfinityIsInfinity : Prop :=
  ∀ x y : Word, isInf x = true → isInf y = true →
    fmul32 x y = BitVec.ofBool (x.getLsbD 31 ^^ y.getLsbD 31) ++ 0xFF#8 ++ 0#23

/-- R185: the product of two finite nonzero values is the binary32 value nearest to the exact product, infinities standing
at ±2^128; on a tie its bit 0 is 0; its sign is that of the exact product. Values are in units of 2^−149, so the exact product is
in units of 2^−298. -/
def Obligations.MultiplierRoundsToTheNearestEven : Prop :=
  ∀ x y : Word, isFiniteNonzero x = true → isFiniteNonzero y = true →
    let p := f32Value x * f32Value y
    let r := fmul32 x y
    isNaN r = false ∧ r.getLsbD 31 = (x.getLsbD 31 ^^ y.getLsbD 31) ∧
      ∀ z : Word, isNaN z = false →
        |f32Value r * 2 ^ 149 - p| ≤ |f32Value z * 2 ^ 149 - p| ∧
        (|f32Value r * 2 ^ 149 - p| = |f32Value z * 2 ^ 149 - p| → f32Value z ≠ f32Value r → r.getLsbD 0 = false)

/-- R186: the product of finite nonzero operands is ±infinity exactly when |p| ≥ (2 − 2^−24) · 2^127, and otherwise its
magnitude is at most that of 0x7F7FFFFF, which some product has. -/
def Obligations.MultiplierOverflowsAtTheBound : Prop :=
  (∀ x y : Word, isFiniteNonzero x = true → isFiniteNonzero y = true →
    ((2 ^ 25 - 1) * 2 ^ 401 ≤ |f32Value x * f32Value y| → fmul32 x y = 0x7F800000 ∨ fmul32 x y = 0xFF800000) ∧
    (|f32Value x * f32Value y| < (2 ^ 25 - 1) * 2 ^ 401 → (fmul32 x y).extractLsb' 0 31 ≤ 0x7F7FFFFF#31)) ∧
  fmul32 0x7F7FFFFF 0x3F800000 = 0x7F7FFFFF ∧ fmul32 0xBF800000 0x7F7FFFFF = 0xFF7FFFFF

/-! The host's bus. -/

/-- R61, R64: an access at BASE + off acts on the location that offset bits [13:2] select, bits [1:0] ignored. That an access
outside the window changes nothing of the block is the model's choice (log 1), and so is the field rdata in which the word that
a read returns is held (log 6). -/
def Obligations.OffsetsIgnoreTheirLowBits : Prop :=
  (∀ (off : Nat) (v : Word) (s : State), off < 0x4000 →
    s.busWrite (Config.base + off) v = s.writeLoc v (locate (off - off % 4)) ∧
    s.busRead (Config.base + off) = { s with rdata := s.readLoc (locate (off - off % 4)) }) ∧
  ∀ (addr : Nat) (v : Word) (s : State), addr < Config.base ∨ Config.base + 0x4000 ≤ addr →
    s.busWrite addr v = s ∧ s.busRead addr = s

/-- R68, R69, R118: a host read returns the word of its location as the committed state has it and changes nothing. The field
rdata that holds the word is the model's (log 6). -/
def Obligations.ReadsHaveNoSideEffect : Prop :=
  ∀ (s : State) (off : Nat) (rest : List Turn), off < 0x4000 → s.sched = .read (Config.base + off) :: rest →
    step s = .next { s with sched := rest, rdata := s.readLoc (locate off) }

/-- R65, R69: a write to a reserved offset, to a read-only register or to STATUS apart from its two W1C bits changes nothing, in
both engine states; a reserved offset reads 0, and so does CMD (R39). -/
def Obligations.ReservedAndReadOnlyWordsIgnoreWrites : Prop :=
  ∀ (s : State) (v : Word) (i : Fin 128) (k : Fin 256),
    s.writeLoc (v &&& 0xFFFCFFFF) .status = s ∧
    (∀ l ∈ [Loc.reserved, .result, .frame0, .frame1, .mapInfo, .regs i, .value k, .slotInfo k], s.writeLoc v l = s) ∧
    s.readLoc .reserved = 0 ∧ s.readLoc .cmd = 0

/-- R112, R116: a CMD write while IDLE is accepted: the opcode is latched, BUSY is 1 and DONE is 0. While BUSY it is dropped and
sets OVERRUN. Nothing else changes. -/
def Obligations.CommandWriteIsAcceptedOrDropped : Prop :=
  ∀ (s : State) (v : Word) (rest : List Turn), s.sched = .write Config.base v :: rest →
    (s.engine.state = .idle → step s = .next { s with
      sched := rest
      status := { s.status with done := false }
      engine := { s.engine with state := .busy, op := v.extractLsb' 0 8 } }) ∧
    (s.engine.state = .busy → step s = .next { s with sched := rest, status := { s.status with overrun := true } })

/-- R117: a write to a protected location while BUSY is dropped and sets BUSYWR; nothing else changes. -/
def Obligations.ProtectedWritesAreDroppedWhileBusy : Prop :=
  ∀ (s : State) (v : Word) (off : Nat) (rest : List Turn), off < 0x4000 → (locate off).isProtected = true →
    s.sched = .write (Config.base + off) v :: rest → s.engine.state = .busy →
      step s = .next { s with sched := rest, status := { s.status with busyWr := true } }

/-- R32, R119: in both engine states a STATUS write clears OVERRUN where bit 16 is 1 and BUSYWR where bit 17 is 1, and changes no
other bit. -/
def Obligations.StatusWriteClearsTheStickyBits : Prop :=
  ∀ (s : State) (v : Word), s.writeLoc v .status = { s with status := { s.status with
      overrun := s.status.overrun && !v.getLsbD 16
      busyWr := s.status.busyWr && !v.getLsbD 17 } } ∧
    (s.writeLoc v .status).readLoc .status = s.readLoc .status &&& ~~~(v &&& 0x00030000)

/-- R75, R48, R117: a write to a protected location while IDLE stores the bits of its fields, so that the next read returns them
and 0 elsewhere, and no other word of the window changes. Each field of FLEN, ARG0 to ARG2, UT, MT and DM is taken from the
bits of the written word that R21, R23 and R40 to R43 give it. -/
def Obligations.IdleWritesAreReadBack : Prop :=
  (∀ (s : State) (v : Word) (l : Loc), s.engine.state = .idle → l.isProtected = true →
    (s.writeLoc v l).readLoc l = v &&& l.fieldBits ∧
    ∀ l', l' ≠ l → (s.writeLoc v l).readLoc l' = s.readLoc l') ∧
  ∀ (s : State) (v : Word) (u : Fin 256) (k : Fin 64), s.engine.state = .idle →
    (s.writeLoc v .flen).inputs.flen = v.extractLsb' 0 9 ∧
    (s.writeLoc v .arg0).inputs.arg0 = v ∧ (s.writeLoc v .arg1).inputs.arg1 = v ∧ (s.writeLoc v .arg2).inputs.arg2 = v ∧
    (s.writeLoc v (.ut u)).tables.ut[u].deviceId = v.extractLsb' 0 8 ∧
    (s.writeLoc v (.ut u)).tables.ut[u].valid = v.getLsbD 8 ∧
    (s.writeLoc v (.mtKey k)).tables.mt[k].unit = v.extractLsb' 0 8 ∧
    (s.writeLoc v (.mtKey k)).tables.mt[k].func = v.extractLsb' 8 8 ∧
    (s.writeLoc v (.mtKey k)).tables.mt[k].valid = v.getLsbD 16 ∧
    (s.writeLoc v (.mtList k)).tables.mt[k].base = v.extractLsb' 0 8 ∧
    (s.writeLoc v (.mtList k)).tables.mt[k].count = v.extractLsb' 16 9 ∧
    (s.writeLoc v (.defLo u)).tables.dm[u].lo = v ∧ (s.writeLoc v (.defHi u)).tables.dm[u].hi = v

/-- R66, R74: an FB word write while IDLE sets byte i of the word at FB[4w + i] and leaves every other byte of FB; a read
returns the four bytes, FB[4w] in the low one. -/
def Obligations.FrameBufferWordsAreLittleEndian : Prop :=
  ∀ (s : State) (v : Word) (w : Fin 128), s.engine.state = .idle →
    (∀ i : Nat, i < 4 → (s.writeLoc v (.fb w)).fbByte (4 * w.val + i) = v.extractLsb' (8 * i) 8) ∧
    (∀ a : Nat, a / 4 ≠ w.val → (s.writeLoc v (.fb w)).fbByte a = s.fbByte a) ∧
    s.readLoc (.fb w) = s.fbByte (4 * w.val + 3) ++ s.fbByte (4 * w.val + 2) ++ s.fbByte (4 * w.val + 1) ++ s.fbByte (4 * w.val)

/-- R48, R103: every bit of the window that is no field reads 0, and TAG is never 3. -/
def Obligations.BitsThatAreNoFieldReadZero : Prop :=
  ∀ (s : State) (l : Loc), s.readLoc l &&& ~~~l.fieldBits = 0 ∧
    ∀ k : Fin 256, (s.readLoc (.slotInfo k)).extractLsb' 1 2 ≠ 3#2

/-- R32, R45, R102, R201: the fields of STATUS stand at their bits in the word the host reads, and ERR shows each error as its
code. -/
def Obligations.StatusFieldsStandAtTheirBits : Prop :=
  ∀ s : State,
    let w := s.readLoc .status
    w.getLsbD 0 = (s.engine.state == .busy) ∧ w.getLsbD 1 = s.status.done ∧ w.extractLsb' 8 8 = s.status.lastOp ∧
    w.getLsbD 16 = s.status.overrun ∧ w.getLsbD 17 = s.status.busyWr ∧
    (s.status.err = .ok → w.extractLsb' 4 4 = 0#4) ∧ (s.status.err = .frameTooShort → w.extractLsb' 4 4 = 1#4) ∧
    (s.status.err = .oddByteCount → w.extractLsb' 4 4 = 2#4) ∧ (s.status.err = .dataShort → w.extractLsb' 4 4 = 3#4) ∧
    (s.status.err = .noFrame → w.extractLsb' 4 4 = 4#4) ∧ (s.status.err = .cfgErr → w.extractLsb' 4 4 = 5#4) ∧
    (s.status.err = .badCmd → w.extractLsb' 4 4 = 6#4) ∧ (w.extractLsb' 4 4).toNat ≤ 6

/-- R106: DEF writes DEF_HI[j] and then DEF_LO[j], at their addresses. The two words hold the fields of the line at their bits,
hi the multiplier zero-extended or the FSCALE itself, and are the encoding (R91 to R94) of the definition that the type names, with
its reserved and unused fields 0. -/
def Obligations.DefinitionListingWritesTheEncoding : Prop :=
  (∀ (j slot idx : Byte) (ty : DefType), (Listing.define j slot idx ty).expand =
    [.write (Config.base + (0x2004 + 8 * j.toNat)) ty.hi, .write (Config.base + (0x2000 + 8 * j.toNat)) (ty.lo slot idx)]) ∧
  (∀ (slot idx : Byte) (m : Half) (sh : BitVec 5) (wo : BitVec 3) (f : Word),
    (DefType.u16 m sh).hi = 0#16 ++ m ∧ (DefType.u16 m sh).lo slot idx = 0#3 ++ sh ++ 0#6 ++ 0b00#2 ++ slot ++ idx ∧
    (DefType.raw m sh).hi = 0#16 ++ m ∧ (DefType.raw m sh).lo slot idx = 0#3 ++ sh ++ 0#6 ++ 0b10#2 ++ slot ++ idx ∧
    (DefType.raw3 m sh).hi = 0#16 ++ m ∧ (DefType.raw3 m sh).lo slot idx = 0#3 ++ sh ++ 0#6 ++ 0b11#2 ++ slot ++ idx ∧
    (DefType.f32 wo f).hi = f ∧ (DefType.f32 wo f).lo slot idx = 0#11 ++ wo ++ 0b01#2 ++ slot ++ idx) ∧
  ∀ (slot idx : Byte) (m : Half) (sh : BitVec 5) (wo : BitVec 3) (f : Word),
    let d : DefOperands := ⟨idx, slot, sh, 0, 0, m.setWidth 32⟩
    let e : DefOperands := ⟨idx, slot, 0, 0, 0, f⟩
    let line (ty : DefType) := [ty.lo slot idx, ty.hi]
    encode (.u16 0 d) = line (.u16 m sh) ∧ encode (.raw 0b10 0 d) = line (.raw m sh) ∧
    encode (.raw 0b11 0 d) = line (.raw3 m sh) ∧
    encode (.f32Abcd e) = line (.f32 0b000 f) ∧ encode (.f32Badc e) = line (.f32 0b001 f) ∧
    encode (.f32Cdab e) = line (.f32 0b010 f) ∧ encode (.f32Dcba e) = line (.f32 0b011 f) ∧
    ((Instr.f32Reserved wo e).wf = true → encode (.f32Reserved wo e) = line (.f32 wo f)) ∧
    encode (decodeDefinition ((DefType.f32 wo f).lo slot idx) (DefType.f32 wo f).hi) = line (.f32 wo f)

/-- R62, R61: what stands at each offset of the window. The registers, both ends and every word between of each file, the
reserved gaps, which locations are protected, and that every other location but CMD and STATUS ignores a write. -/
def Obligations.AddressMapIsTheTable : Prop :=
  (∀ off, off < 0x4000 → locateAddr (Config.base + off) = some (locate off) ∧ locate off = locate (off - off % 4)) ∧
  (locate 0x0000 = .cmd ∧ locate 0x0004 = .status ∧ locate 0x0008 = .flen ∧ locate 0x000C = .arg0 ∧ locate 0x0010 = .arg1 ∧
    locate 0x0014 = .arg2 ∧ locate 0x0018 = .result ∧ locate 0x0020 = .frame0 ∧ locate 0x0024 = .frame1 ∧
    locate 0x0028 = .mapInfo) ∧
  (∀ i : Fin 128, locate (0x0200 + 4 * i) = .regs i ∧ locate (0x0400 + 4 * i) = .fb i) ∧
  (∀ k : Fin 256, locate (0x0800 + 4 * k) = .value k ∧ locate (0x0C00 + 4 * k) = .slotInfo k ∧ locate (0x1000 + 4 * k) = .ut k ∧
    locate (0x2000 + 8 * k) = .defLo k ∧ locate (0x2004 + 8 * k) = .defHi k) ∧
  (∀ k : Fin 64, locate (0x1400 + 8 * k) = .mtKey k ∧ locate (0x1404 + 8 * k) = .mtList k) ∧
  (∀ off, (0x001C ≤ off ∧ off ≤ 0x001F) ∨ (0x002C ≤ off ∧ off ≤ 0x01FF) ∨ (0x0600 ≤ off ∧ off ≤ 0x07FF) ∨
    (0x1600 ≤ off ∧ off ≤ 0x1FFF) ∨ (0x2800 ≤ off ∧ off ≤ 0x3FFF) → locate off = .reserved) ∧
  (∀ l : Loc, l.isProtected = true ↔ l ∈ [.flen, .arg0, .arg1, .arg2] ∨ (∃ w, l = .fb w) ∨ (∃ u, l = .ut u) ∨
    (∃ k, l = .mtKey k ∨ l = .mtList k) ∨ ∃ j, l = .defLo j ∨ l = .defHi j) ∧
  ∀ (s : State) (v : Word) (l : Loc), l.isProtected = false → l ≠ .cmd → l ≠ .status → s.writeLoc v l = s

/-- R21, R23 to R27, R29, R30, R40 to R43: where the fields of each readable word but STATUS (O57) and FB (O55) stand. RESULT, the
ARG registers, VALUE and DM are read whole, REGS and FLEN in the low bits with 0 above. -/
def Obligations.ReadWordsHoldTheirFields : Prop :=
  ∀ (s : State) (i : Fin 128) (k : Fin 256) (j : Fin 64),
    (s.readLoc .result = s.result ∧ s.readLoc .arg0 = s.inputs.arg0 ∧ s.readLoc .arg1 = s.inputs.arg1 ∧
      s.readLoc .arg2 = s.inputs.arg2 ∧ s.readLoc .flen = 0#23 ++ s.inputs.flen ∧ s.readLoc (.regs i) = 0#16 ++ s.frame.regs[i] ∧
      s.readLoc (.value k) = s.mapping.value[k] ∧ s.readLoc (.defLo k) = s.tables.dm[k].lo ∧
      s.readLoc (.defHi k) = s.tables.dm[k].hi) ∧
    (let w := s.readLoc .frame0;
      w.extractLsb' 0 8 = s.frame.frame0.unitId ∧ w.extractLsb' 8 8 = s.frame.frame0.func ∧
        w.extractLsb' 16 8 = s.frame.frame0.byteCount ∧ w.extractLsb' 24 7 = s.frame.frame0.regCount ∧
        w.getLsbD 31 = s.frame.frame0.valid) ∧
    (let w := s.readLoc .frame1;
      w.extractLsb' 0 16 = s.frame.frame1.crcRaw ∧ w.getLsbD 16 = s.frame.frame1.crcOk ∧
        w.getLsbD 17 = s.frame.frame1.warnLen) ∧
    (let w := s.readLoc .mapInfo;
      w.extractLsb' 0 8 = s.mapping.info.deviceId ∧ w.getLsbD 8 = s.mapping.info.devValid ∧
        w.getLsbD 9 = s.mapping.info.funcHit ∧ w.extractLsb' 16 9 = s.mapping.info.nvalid) ∧
    (let w := s.readLoc (.slotInfo k);
      w.getLsbD 0 = s.mapping.slotInfo[k].valid ∧ (s.mapping.slotInfo[k].tag = .int → w.extractLsb' 1 2 = 0#2) ∧
        (s.mapping.slotInfo[k].tag = .f32 → w.extractLsb' 1 2 = 1#2) ∧
        (s.mapping.slotInfo[k].tag = .raw → w.extractLsb' 1 2 = 2#2)) ∧
    (let w := s.readLoc (.ut k);
      w.extractLsb' 0 8 = s.tables.ut[k].deviceId ∧ w.getLsbD 8 = s.tables.ut[k].valid) ∧
    (let w := s.readLoc (.mtKey j);
      w.extractLsb' 0 8 = s.tables.mt[j].unit ∧ w.extractLsb' 8 8 = s.tables.mt[j].func ∧ w.getLsbD 16 = s.tables.mt[j].valid) ∧
    (let w := s.readLoc (.mtList j);
      w.extractLsb' 0 8 = s.tables.mt[j].base ∧ w.extractLsb' 16 9 = s.tables.mt[j].count)
end

