-- ==== Sys2Proof/Laws/State.lean ====
section
/-! SUPPORT. What each update of State leaves in each field, every lemma true by definition, so that no later proof unfolds
a record update. -/

namespace Sys2Proof.Laws

open Sys2Proof.Machine

/-! Files of equal or computed entries. -/

@[simp] theorem getElem_fill {α : Type} (n : Nat) (a : α) (i : Nat) (h : i < n) : (fill n a)[i] = a := by
  simp [fill]

@[simp] theorem getElem_tabulate {α : Type} (n : Nat) (f : Nat → α) (i : Nat) (h : i < n) : (tabulate n f)[i] = f i := by
  simp [tabulate]

/-! The cleared frame and map state. -/

@[simp] theorem frame_cleared_frame0 (w : Bool) : (Frame.cleared w).frame0 = .zero := rfl
@[simp] theorem frame_cleared_frame1 (w : Bool) : (Frame.cleared w).frame1 = ⟨0, false, w⟩ := rfl
@[simp] theorem frame_cleared_regs (w : Bool) : (Frame.cleared w).regs = fill 128 0 := rfl
@[simp] theorem mapping_cleared_info : Mapping.cleared.info = ⟨0, false, false, 0⟩ := rfl
@[simp] theorem mapping_cleared_value : Mapping.cleared.value = fill 256 0 := rfl
@[simp] theorem mapping_cleared_slotInfo : Mapping.cleared.slotInfo = fill 256 ⟨false, .int⟩ := rfl
@[simp] theorem frame0_zero_valid : Frame0.zero.valid = false := rfl
@[simp] theorem frame0_zero_regCount : Frame0.zero.regCount = 0 := rfl

/-! How a command ends. -/

@[simp] theorem raise_state (e : ErrCode) (s : State) : (raise e s).1 = s := rfl
@[simp] theorem raise_err (e : ErrCode) (s : State) : (raise e s).2 = e := rfl
@[simp] theorem succeed_state (s : State) : (succeed s).1 = s := rfl
@[simp] theorem succeed_err (s : State) : (succeed s).2 = .ok := rfl

/-! `clearMap` -/

@[simp] theorem clearMap_inputs (s : State) : s.clearMap.inputs = s.inputs := rfl
@[simp] theorem clearMap_tables (s : State) : s.clearMap.tables = s.tables := rfl
@[simp] theorem clearMap_frame (s : State) : s.clearMap.frame = s.frame := rfl
@[simp] theorem clearMap_mapping (s : State) : s.clearMap.mapping = .cleared := rfl
@[simp] theorem clearMap_result (s : State) : s.clearMap.result = s.result := rfl
@[simp] theorem clearMap_status (s : State) : s.clearMap.status = s.status := rfl
@[simp] theorem clearMap_engine (s : State) : s.clearMap.engine = s.engine := rfl
@[simp] theorem clearMap_epoch (s : State) : s.clearMap.epoch = s.epoch := rfl
@[simp] theorem clearMap_sched (s : State) : s.clearMap.sched = s.sched := rfl
@[simp] theorem clearMap_rdata (s : State) : s.clearMap.rdata = s.rdata := rfl

/-! `clearFrame` -/

@[simp] theorem clearFrame_inputs (w : Bool) (s : State) : (s.clearFrame w).inputs = s.inputs := rfl
@[simp] theorem clearFrame_tables (w : Bool) (s : State) : (s.clearFrame w).tables = s.tables := rfl
@[simp] theorem clearFrame_frame (w : Bool) (s : State) : (s.clearFrame w).frame = .cleared w := rfl
@[simp] theorem clearFrame_mapping (w : Bool) (s : State) : (s.clearFrame w).mapping = .cleared := rfl
@[simp] theorem clearFrame_result (w : Bool) (s : State) : (s.clearFrame w).result = s.result := rfl
@[simp] theorem clearFrame_status (w : Bool) (s : State) : (s.clearFrame w).status = s.status := rfl
@[simp] theorem clearFrame_engine (w : Bool) (s : State) : (s.clearFrame w).engine = s.engine := rfl
@[simp] theorem clearFrame_epoch (w : Bool) (s : State) : (s.clearFrame w).epoch = s.epoch := rfl
@[simp] theorem clearFrame_sched (w : Bool) (s : State) : (s.clearFrame w).sched = s.sched := rfl
@[simp] theorem clearFrame_rdata (w : Bool) (s : State) : (s.clearFrame w).rdata = s.rdata := rfl

/-! `storeSlot` -/

@[simp] theorem storeSlot_inputs (k : Byte) (v : Word) (t : Tag) (s : State) :
    (s.storeSlot k v t).inputs = s.inputs := rfl
@[simp] theorem storeSlot_tables (k : Byte) (v : Word) (t : Tag) (s : State) :
    (s.storeSlot k v t).tables = s.tables := rfl
@[simp] theorem storeSlot_frame (k : Byte) (v : Word) (t : Tag) (s : State) :
    (s.storeSlot k v t).frame = s.frame := rfl
@[simp] theorem storeSlot_mapping (k : Byte) (v : Word) (t : Tag) (s : State) :
    (s.storeSlot k v t).mapping = { s.mapping with value := s.mapping.value.set k.toNat v k.isLt, slotInfo := s.mapping.slotInfo.set k.toNat ⟨true, t⟩ k.isLt } := rfl
@[simp] theorem storeSlot_result (k : Byte) (v : Word) (t : Tag) (s : State) :
    (s.storeSlot k v t).result = s.result := rfl
@[simp] theorem storeSlot_status (k : Byte) (v : Word) (t : Tag) (s : State) :
    (s.storeSlot k v t).status = s.status := rfl
@[simp] theorem storeSlot_engine (k : Byte) (v : Word) (t : Tag) (s : State) :
    (s.storeSlot k v t).engine = s.engine := rfl
@[simp] theorem storeSlot_epoch (k : Byte) (v : Word) (t : Tag) (s : State) :
    (s.storeSlot k v t).epoch = s.epoch := rfl
@[simp] theorem storeSlot_sched (k : Byte) (v : Word) (t : Tag) (s : State) :
    (s.storeSlot k v t).sched = s.sched := rfl
@[simp] theorem storeSlot_rdata (k : Byte) (v : Word) (t : Tag) (s : State) :
    (s.storeSlot k v t).rdata = s.rdata := rfl

/-! `advance` -/

@[simp] theorem advance_inputs (s : State) : s.advance.inputs = s.inputs := rfl
@[simp] theorem advance_tables (s : State) : s.advance.tables = s.tables := rfl
@[simp] theorem advance_frame (s : State) : s.advance.frame = s.frame := rfl
@[simp] theorem advance_mapping (s : State) : s.advance.mapping = s.mapping := rfl
@[simp] theorem advance_result (s : State) : s.advance.result = s.result := rfl
@[simp] theorem advance_status (s : State) : s.advance.status = s.status := rfl
@[simp] theorem advance_engine (s : State) : s.advance.engine = { s.engine with dcur := s.engine.dcur.map (· + 1) } := rfl
@[simp] theorem advance_epoch (s : State) : s.advance.epoch = s.epoch := rfl
@[simp] theorem advance_sched (s : State) : s.advance.sched = s.sched := rfl
@[simp] theorem advance_rdata (s : State) : s.advance.rdata = s.rdata := rfl

/-! `accept` -/

@[simp] theorem accept_inputs (op : Byte) (s : State) : (s.accept op).inputs = s.inputs := rfl
@[simp] theorem accept_tables (op : Byte) (s : State) : (s.accept op).tables = s.tables := rfl
@[simp] theorem accept_frame (op : Byte) (s : State) : (s.accept op).frame = s.frame := rfl
@[simp] theorem accept_mapping (op : Byte) (s : State) : (s.accept op).mapping = s.mapping := rfl
@[simp] theorem accept_result (op : Byte) (s : State) : (s.accept op).result = s.result := rfl
@[simp] theorem accept_status (op : Byte) (s : State) : (s.accept op).status = { s.status with done := false } := rfl
@[simp] theorem accept_engine (op : Byte) (s : State) :
    (s.accept op).engine = { s.engine with state := .busy, op := op } := rfl
@[simp] theorem accept_epoch (op : Byte) (s : State) : (s.accept op).epoch = s.epoch := rfl
@[simp] theorem accept_sched (op : Byte) (s : State) : (s.accept op).sched = s.sched := rfl
@[simp] theorem accept_rdata (op : Byte) (s : State) : (s.accept op).rdata = s.rdata := rfl

/-! `startList` -/

@[simp] theorem startList_inputs (dev : Byte) (e : FuncEntry) (s : State) :
    (s.startList dev e).inputs = s.inputs := rfl
@[simp] theorem startList_tables (dev : Byte) (e : FuncEntry) (s : State) :
    (s.startList dev e).tables = s.tables := rfl
@[simp] theorem startList_frame (dev : Byte) (e : FuncEntry) (s : State) : (s.startList dev e).frame = s.frame := rfl
@[simp] theorem startList_mapping (dev : Byte) (e : FuncEntry) (s : State) :
    (s.startList dev e).mapping = { Mapping.cleared with info := ⟨dev, true, true, 0⟩ } := rfl
@[simp] theorem startList_result (dev : Byte) (e : FuncEntry) (s : State) :
    (s.startList dev e).result = s.result := rfl
@[simp] theorem startList_status (dev : Byte) (e : FuncEntry) (s : State) :
    (s.startList dev e).status = s.status := rfl
@[simp] theorem startList_engine (dev : Byte) (e : FuncEntry) (s : State) :
    (s.startList dev e).engine = { s.engine with dcur := some (e.base.setWidth 9) } := rfl
@[simp] theorem startList_epoch (dev : Byte) (e : FuncEntry) (s : State) : (s.startList dev e).epoch = s.epoch := rfl
@[simp] theorem startList_sched (dev : Byte) (e : FuncEntry) (s : State) : (s.startList dev e).sched = s.sched := rfl
@[simp] theorem startList_rdata (dev : Byte) (e : FuncEntry) (s : State) : (s.startList dev e).rdata = s.rdata := rfl

/-! `finishList` -/

@[simp] theorem finishList_inputs (s : State) : s.finishList.inputs = s.inputs := rfl
@[simp] theorem finishList_tables (s : State) : s.finishList.tables = s.tables := rfl
@[simp] theorem finishList_frame (s : State) : s.finishList.frame = s.frame := rfl
@[simp] theorem finishList_mapping (s : State) :
    s.finishList.mapping = { s.mapping with info := { s.mapping.info with nvalid := countValid s.mapping.slotInfo } } := rfl
@[simp] theorem finishList_result (s : State) : s.finishList.result = s.result := rfl
@[simp] theorem finishList_status (s : State) : s.finishList.status = s.status := rfl
@[simp] theorem finishList_engine (s : State) : s.finishList.engine = s.engine := rfl
@[simp] theorem finishList_epoch (s : State) : s.finishList.epoch = s.epoch := rfl
@[simp] theorem finishList_sched (s : State) : s.finishList.sched = s.sched := rfl
@[simp] theorem finishList_rdata (s : State) : s.finishList.rdata = s.rdata := rfl

/-! `complete` -/

@[simp] theorem complete_inputs (r : Result) : (complete r).inputs = r.1.inputs := rfl
@[simp] theorem complete_tables (r : Result) : (complete r).tables = r.1.tables := rfl
@[simp] theorem complete_frame (r : Result) : (complete r).frame = r.1.frame := rfl
@[simp] theorem complete_mapping (r : Result) : (complete r).mapping = r.1.mapping := rfl
@[simp] theorem complete_result (r : Result) : (complete r).result = r.1.result := rfl
@[simp] theorem complete_status (r : Result) :
    (complete r).status = { r.1.status with done := true, err := r.2, lastOp := r.1.engine.op } := rfl
@[simp] theorem complete_engine (r : Result) : (complete r).engine = { r.1.engine with state := .idle, dcur := none } := rfl
@[simp] theorem complete_epoch (r : Result) : (complete r).epoch = r.1.epoch := rfl
@[simp] theorem complete_sched (r : Result) : (complete r).sched = r.1.sched := rfl
@[simp] theorem complete_rdata (r : Result) : (complete r).rdata = r.1.rdata := rfl

/-! `writeStatus` -/

@[simp] theorem writeStatus_inputs (v : Word) (s : State) : (s.writeStatus v).inputs = s.inputs := rfl
@[simp] theorem writeStatus_tables (v : Word) (s : State) : (s.writeStatus v).tables = s.tables := rfl
@[simp] theorem writeStatus_frame (v : Word) (s : State) : (s.writeStatus v).frame = s.frame := rfl
@[simp] theorem writeStatus_mapping (v : Word) (s : State) : (s.writeStatus v).mapping = s.mapping := rfl
@[simp] theorem writeStatus_result (v : Word) (s : State) : (s.writeStatus v).result = s.result := rfl
@[simp] theorem writeStatus_status (v : Word) (s : State) :
    (s.writeStatus v).status = { s.status with overrun := s.status.overrun && !v.getLsbD 16, busyWr := s.status.busyWr && !v.getLsbD 17 } := rfl
@[simp] theorem writeStatus_engine (v : Word) (s : State) : (s.writeStatus v).engine = s.engine := rfl
@[simp] theorem writeStatus_epoch (v : Word) (s : State) : (s.writeStatus v).epoch = s.epoch := rfl
@[simp] theorem writeStatus_sched (v : Word) (s : State) : (s.writeStatus v).sched = s.sched := rfl
@[simp] theorem writeStatus_rdata (v : Word) (s : State) : (s.writeStatus v).rdata = s.rdata := rfl

end Sys2Proof.Laws
end

