-- ==== Sys2Proof/Laws/Memory.lean ====
section
/-! SUPPORT. The laws of the frame buffer: a read after a write, and that every write keeps the canonical form. -/

namespace Sys2Proof.Laws

open Sys2Proof.Machine

@[simp] theorem find_nil (a : Nat) : Memory.find [] a = none := rfl

theorem find_cons (a' : Nat) (b' : Byte) (m : Memory) (a : Nat) :
    Memory.find ((a', b') :: m) a = if a = a' then some b' else Memory.find m a := rfl

theorem find_write_same (m : Memory) (a : Nat) (b : Byte) : (m.write a b).find a = some b := by
  induction m with
  | nil => simp [Memory.write, find_cons]
  | cons c m ih =>
    obtain ⟨a', b'⟩ := c
    simp only [Memory.write]
    split_ifs with h1 h2
    · simp [find_cons]
    · simp [find_cons]
    · simp [find_cons, h2, ih]

theorem find_write_other (m : Memory) (a a' : Nat) (b : Byte) (h : a' ≠ a) : (m.write a b).find a' = m.find a' := by
  induction m with
  | nil => simp [Memory.write, find_cons, h]
  | cons c m ih =>
    obtain ⟨a'', b''⟩ := c
    simp only [Memory.write]
    split_ifs with h1 h2
    · simp [find_cons, h]
    · subst h2
      simp [find_cons, h]
    · simp [find_cons, ih]

/-- Reading after writing, in one equation. -/
theorem find_write (m : Memory) (a a' : Nat) (b : Byte) :
    (m.write a b).find a' = if a' = a then some b else m.find a' := by
  split_ifs with h
  · rw [h, find_write_same]
  · exact find_write_other m a a' b h

theorem risesAbove_write (m : Memory) (lo a : Nat) (b : Byte) (h : m.risesAbove lo = true) (ha : lo < a) :
    (m.write a b).risesAbove lo = true := by
  induction m generalizing lo with
  | nil => simp [Memory.write, Memory.risesAbove, ha]
  | cons c m ih =>
    obtain ⟨a', b'⟩ := c
    simp only [Memory.risesAbove, Bool.and_eq_true, decide_eq_true_eq] at h
    simp only [Memory.write]
    split_ifs with h1 h2
    · simp [Memory.risesAbove, ha, h1, h.2]
    · subst h2
      simp [Memory.risesAbove, ha, h.2]
    · simp only [Memory.risesAbove, h.1, decide_true, Bool.true_and]
      exact ih a' h.2 (by omega)

theorem all_write (p : Host.Cell → Bool) (m : Memory) (a : Nat) (b : Byte) (h : m.all p = true) (hp : p (a, b) = true) :
    (m.write a b).all p = true := by
  induction m with
  | nil => simp [Memory.write, hp]
  | cons c m ih =>
    obtain ⟨a', b'⟩ := c
    simp only [List.all_cons, Bool.and_eq_true] at h
    simp only [Memory.write]
    split_ifs with h1 h2
    · simp [List.all_cons, hp, h.1, h.2]
    · simp [List.all_cons, hp, h.2]
    · simp [List.all_cons, h.1, ih h.2]

/-- A write of a byte of FB keeps the canonical form. -/
theorem wf_write (m : Memory) (a : Nat) (b : Byte) (h : m.wf = true) (ha : a < 512) : (m.write a b).wf = true := by
  cases m with
  | nil => simp [Memory.write, Memory.wf, Memory.risesAbove, ha]
  | cons c m =>
    obtain ⟨a', b'⟩ := c
    simp only [Memory.wf, Bool.and_eq_true] at h
    have hall := all_write (fun c => decide (c.1 < 512)) ((a', b') :: m) a b h.2 (by simp [ha])
    have hw : (Memory.write ((a', b') :: m) a b) = if a < a' then (a, b) :: (a', b') :: m
        else if a = a' then (a, b) :: m else (a', b') :: Memory.write m a b := rfl
    rw [hw] at hall ⊢
    split_ifs at hall ⊢ with h1 h2
    · simp [Memory.wf, Memory.risesAbove, h1, h.1] at hall ⊢
      simpa using hall
    · subst h2
      simp only [Memory.wf, Bool.and_eq_true]
      exact ⟨h.1, hall⟩
    · simp only [Memory.wf, Bool.and_eq_true]
      exact ⟨risesAbove_write m a' a b h.1 (by omega), hall⟩

/-- A write of a word of FB keeps the canonical form. -/
theorem wf_writeWord (m : Memory) (w : Fin 128) (v : Word) (h : m.wf = true) : (m.writeWord w v).wf = true := by
  have := w.isLt
  exact wf_write _ _ _ (wf_write _ _ _ (wf_write _ _ _ (wf_write _ _ _ h (by omega)) (by omega)) (by omega)) (by omega)

/-- What a byte address holds after a word write (R66). -/
theorem find_writeWord (m : Memory) (w a : Nat) (v : Word) :
    (m.writeWord w v).find a = if a / 4 = w then some (v.extractLsb' (8 * (a % 4)) 8) else m.find a := by
  simp only [Memory.writeWord, find_write]
  split_ifs <;> first | omega | rfl | skip
  all_goals congr 2; omega

/-- FB[a] depends on the stored bytes and the epoch alone. -/
theorem fbByte_congr (s t : State) (a : Nat) (h1 : t.inputs.fb = s.inputs.fb) (h2 : t.epoch = s.epoch) :
    t.fbByte a = s.fbByte a := by simp [State.fbByte, h1, h2]

end Sys2Proof.Laws
end

