-- ==== Sys2Proof/Laws/Bus.lean ====
section
/-! SUPPORT. What a host access can do, said once: a write to a location changes the inputs, the configuration, STATUS and
the engine at most (R69), a read only the word it returns (R68). -/

namespace Sys2Proof.Laws

open Sys2Proof.Machine

/-- An offset of the window selects the location of the address map (R61). -/
@[simp] theorem locateAddr_base (off : Nat) (h : off < 0x4000) : locateAddr (Config.base + off) = some (locate off) := by
  simp [locateAddr, h]

/-- An address outside the window selects nothing (R61). -/
theorem locateAddr_outside (addr : Nat) (h : addr < Config.base ∨ Config.base + 0x4000 ≤ addr) :
    locateAddr addr = none := by
  rw [locateAddr, if_neg (by omega)]

theorem isBusy_eq (s : State) : s.isBusy = (s.engine.state == .busy) := rfl

/-- A write that takes effect changes the inputs and the configuration at most. -/
theorem store_frame (s : State) (v : Word) (l : Loc) :
    ∃ i t, s.store v l = { s with inputs := i, tables := t } := by
  cases l <;> exact ⟨_, _, rfl⟩

/-- A write that takes effect keeps the canonical form of the frame buffer. -/
theorem store_wf (s : State) (v : Word) (l : Loc) (h : s.inputs.fb.wf = true) : (s.store v l).inputs.fb.wf = true := by
  cases l <;> first | exact h | exact wf_writeWord _ _ _ h

/-- The ways a host write ends: nothing, a store while IDLE, an accepted command, or a change of the sticky flags. -/
theorem writeLoc_cases (s : State) (v : Word) (l : Loc) :
    s.writeLoc v l = s ∨
    (s.engine.state = .idle ∧ l.isProtected = true ∧ s.writeLoc v l = s.store v l) ∨
    (s.engine.state = .idle ∧ l = .cmd ∧ s.writeLoc v l = s.accept (v.extractLsb' 0 8)) ∨
    (s.engine.state = .busy ∧ l = .cmd ∧ s.writeLoc v l = { s with status := { s.status with overrun := true } }) ∨
    (s.engine.state = .busy ∧ l.isProtected = true ∧
      s.writeLoc v l = { s with status := { s.status with busyWr := true } }) ∨
    (l = .status ∧ s.writeLoc v l = s.writeStatus v) := by
  cases hs : s.engine.state <;> cases l <;>
    simp [State.writeLoc, State.writeCommand, State.writeProtected, isBusy_eq, hs, Loc.isProtected]

/-- No host write changes the frame or map state, RESULT, the epoch, the turns or the last read word (R69). -/
theorem writeLoc_frame (s : State) (v : Word) (l : Loc) :
    ∃ i t st e, s.writeLoc v l = { s with inputs := i, tables := t, status := st, engine := e } := by
  obtain h | ⟨-, -, h⟩ | ⟨-, -, h⟩ | ⟨-, -, h⟩ | ⟨-, -, h⟩ | ⟨-, h⟩ := writeLoc_cases s v l <;> rw [h]
  · exact ⟨_, _, _, _, rfl⟩
  · obtain ⟨i, t, h⟩ := store_frame s v l
    exact ⟨i, t, s.status, s.engine, h⟩
  · exact ⟨_, _, _, _, rfl⟩
  · exact ⟨_, _, _, _, rfl⟩
  · exact ⟨_, _, _, _, rfl⟩
  · exact ⟨_, _, _, _, rfl⟩

/-- A host read changes the last read word at most (R68). -/
theorem busRead_frame (s : State) (addr : Nat) : ∃ r, s.busRead addr = { s with rdata := r } := by
  unfold State.busRead
  split <;> exact ⟨_, rfl⟩

/-- A host write is a write to a location, or none outside the window. -/
theorem busWrite_cases (s : State) (addr : Nat) (v : Word) :
    s.busWrite addr v = s ∨ ∃ l, locateAddr addr = some l ∧ s.busWrite addr v = s.writeLoc v l := by
  unfold State.busWrite
  cases h : locateAddr addr with
  | none => exact .inl rfl
  | some l => exact .inr ⟨l, rfl, rfl⟩

end Sys2Proof.Laws
end

