-- ==== Sys2Proof/Laws/Decode.lean ====
section
/-! SUPPORT. The fields of the words that the encoder builds, and the form of what the decoder gives. -/

namespace Sys2Proof.Laws

open Sys2Proof.Machine

/-! The fields of a CMD word and of a DEF_LO word, read back at their bits (R88, R91). -/

@[simp] theorem commandWord_opcode (op : Byte) : (commandWord op).extractLsb' 0 8 = op := by
  ext i hi
  simp only [commandWord, BitVec.getElem_extractLsb', BitVec.getLsbD_append]
  simp [hi]

@[simp] theorem defLoWord_index (t : BitVec 2) (wo : BitVec 3) (d : DefOperands) :
    (defLoWord t wo d).extractLsb' 0 8 = d.index := by
  ext i hi
  simp only [defLoWord, BitVec.getElem_extractLsb', BitVec.getLsbD_append]
  simp [hi]

@[simp] theorem defLoWord_slot (t : BitVec 2) (wo : BitVec 3) (d : DefOperands) :
    (defLoWord t wo d).extractLsb' 8 8 = d.slot := by
  ext i hi
  simp only [defLoWord, BitVec.getElem_extractLsb', BitVec.getLsbD_append]
  interval_cases i <;> simp

@[simp] theorem defLoWord_dtype (t : BitVec 2) (wo : BitVec 3) (d : DefOperands) :
    (defLoWord t wo d).extractLsb' 16 2 = t := by
  ext i hi
  simp only [defLoWord, BitVec.getElem_extractLsb', BitVec.getLsbD_append]
  interval_cases i <;> simp

@[simp] theorem defLoWord_wordOrder (t : BitVec 2) (wo : BitVec 3) (d : DefOperands) :
    (defLoWord t wo d).extractLsb' 18 3 = wo := by
  ext i hi
  simp only [defLoWord, BitVec.getElem_extractLsb', BitVec.getLsbD_append]
  interval_cases i <;> simp

@[simp] theorem defLoWord_rsvLow (t : BitVec 2) (wo : BitVec 3) (d : DefOperands) :
    (defLoWord t wo d).extractLsb' 21 3 = d.rsvLow := by
  ext i hi
  simp only [defLoWord, BitVec.getElem_extractLsb', BitVec.getLsbD_append]
  interval_cases i <;> simp

@[simp] theorem defLoWord_shift (t : BitVec 2) (wo : BitVec 3) (d : DefOperands) :
    (defLoWord t wo d).extractLsb' 24 5 = d.shift := by
  ext i hi
  simp only [defLoWord, BitVec.getElem_extractLsb', BitVec.getLsbD_append]
  interval_cases i <;> simp

@[simp] theorem defLoWord_rsvHigh (t : BitVec 2) (wo : BitVec 3) (d : DefOperands) :
    (defLoWord t wo d).extractLsb' 29 3 = d.rsvHigh := by
  ext i hi
  simp only [defLoWord, BitVec.getElem_extractLsb', BitVec.getLsbD_append]
  interval_cases i <;> simp

/-- The operands that the decoder reads from the words of the encoder. -/
@[simp] theorem decodeOperands_defLoWord (t : BitVec 2) (wo : BitVec 3) (d : DefOperands) :
    decodeOperands (defLoWord t wo d) d.hi = d := by
  simp [decodeOperands]

/-- The fields of a DEF_LO word put together again are the word. -/
@[simp] theorem defLoWord_decodeOperands (lo hi : Word) :
    defLoWord (lo.extractLsb' 16 2) (lo.extractLsb' 18 3) (decodeOperands lo hi) = lo := by
  ext i hi
  simp only [defLoWord, decodeOperands, ← BitVec.getLsbD_eq_getElem, BitVec.getLsbD_append, BitVec.getLsbD_extractLsb']
  interval_cases i <;> simp

/-- A DEF pair decodes to a definition operation (R108). -/
theorem decodeDefinition_format (lo hi : Word) : (decodeDefinition lo hi).format = .definition := by
  unfold decodeDefinition
  simp only
  split_ifs <;> rfl

/-- An opcode decodes to a command (R89). -/
theorem decodeOpcode_format : ∀ op : Byte, (decodeOpcode op).format = .command := by decide

/-- A CMD word decodes to a command (R89). -/
theorem decodeCommand_format (v : Word) : (decodeCommand v).format = .command := decodeOpcode_format _

end Sys2Proof.Laws
end

