-- ==== Sys2Proof/Laws/Float.lean ====
section
/-! SUPPORT. The arithmetic behind FM: rounding to the nearest even integer, the value of a magnitude, and the fields of
a packed word (R13, R185). -/

namespace Sys2Proof.Laws

open Sys2Proof.Machine

/-- `roundEven m k` is a nearest integer to m / 2^k, and the even one on a tie. -/
theorem roundEven_nearest (m k : Nat) (j : Int) :
    |(roundEven m k : Int) * 2 ^ k - m| ≤ |j * 2 ^ k - m| ∧
      (|(roundEven m k : Int) * 2 ^ k - m| = |j * 2 ^ k - m| → j ≠ roundEven m k → roundEven m k % 2 = 0) := by
  have hP : (0 : Int) < 2 ^ k := by positivity
  have hd : (m : Int) = (m / 2 ^ k : Nat) * 2 ^ k + (m % 2 ^ k : Nat) := by
    have := Nat.div_add_mod' m (2 ^ k)
    exact_mod_cast this.symm
  have hr : ((m % 2 ^ k : Nat) : Int) < 2 ^ k := by exact_mod_cast Nat.mod_lt m (Nat.two_pow_pos k)
  have hr0 : (0 : Int) ≤ ((m % 2 ^ k : Nat) : Int) := Int.natCast_nonneg _
  have hc1 : (2 * (m % 2 ^ k) < 2 ^ k) ↔ 2 * ((m % 2 ^ k : Nat) : Int) < 2 ^ k := by
    constructor <;> intro h <;> exact_mod_cast h
  have hc2 : (2 ^ k < 2 * (m % 2 ^ k)) ↔ (2 : Int) ^ k < 2 * ((m % 2 ^ k : Nat) : Int) := by
    constructor <;> intro h <;> exact_mod_cast h
  unfold roundEven
  simp only [hc1, hc2]
  rw [hd]
  generalize ((2 : Int) ^ k) = P at *
  generalize m / 2 ^ k = q at *
  generalize hR : ((m % 2 ^ k : Nat) : Int) = r at *
  have hstep : ∀ a b : Int, a < b → a * P + P ≤ b * P := fun a b h => by nlinarith
  split_ifs with h1 h2
  · have e0 : |(q : Int) * P - (q * P + r)| = r := by rw [abs_sub_comm, abs_of_nonneg (by linarith)]; ring
    rw [e0]
    rcases lt_trichotomy j q with h | h | h
    · have := hstep _ _ h
      rw [abs_of_neg (by linarith)]
      exact ⟨by linarith, fun h' => by linarith⟩
    · subst h
      exact ⟨by rw [e0], fun _ h' => absurd rfl h'⟩
    · have := hstep _ _ h
      rw [abs_of_nonneg (by linarith)]
      exact ⟨by linarith, fun h' => by linarith⟩
  · have e0 : |((q + 1 : Nat) : Int) * P - (q * P + r)| = P - r := by
      push_cast
      rw [abs_of_nonneg (by linarith)]; ring
    rw [e0]
    rcases lt_trichotomy j ((q + 1 : Nat) : Int) with h | h | h
    · have h' : j ≤ q := by push_cast at h; linarith
      have : j * P ≤ q * P := by nlinarith
      rw [abs_of_nonpos (by linarith)]
      exact ⟨by linarith, fun h' => by linarith⟩
    · subst h
      exact ⟨by rw [e0], fun _ h' => absurd rfl h'⟩
    · have := hstep _ _ h
      push_cast at this
      rw [abs_of_nonneg (by linarith)]
      exact ⟨by linarith, fun h' => by linarith⟩
  · have htie : 2 * r = P := by linarith
    have hq : (q + q % 2) % 2 = 0 := by omega
    refine ⟨?_, fun _ _ => hq⟩
    have hcases : q % 2 = 0 ∨ q % 2 = 1 := by omega
    have e0 : |((q + q % 2 : Nat) : Int) * P - (q * P + r)| = r := by
      rcases hcases with h | h <;> rw [h] <;> push_cast
      · rw [abs_of_nonpos (by linarith)]; ring
      · rw [abs_of_nonneg (by linarith)]; linarith
    rw [e0]
    rcases le_or_gt j q with h | h
    · have : j * P ≤ q * P := by nlinarith
      rw [abs_of_nonpos (by linarith)]
      linarith
    · have := hstep _ _ h
      rw [abs_of_nonneg (by linarith)]
      linarith

/-- The value of a magnitude (the 31 low bits of an encoding) in units of 2^−149, an infinity at 2^128 (R185). -/
def magValue (b : Nat) : Nat := if b / 2 ^ 23 = 0 then b % 2 ^ 23 else (2 ^ 23 + b % 2 ^ 23) * 2 ^ (b / 2 ^ 23 - 1)

/-- The value of n units of 2^(q − 149), written as the magnitude that carries it. -/
theorem magValue_scaled (q n : Nat) (hn : n ≤ 2 ^ 24) (hq : q = 0 ∨ 2 ^ 23 ≤ n) : magValue (q * 2 ^ 23 + n) = n * 2 ^ q := by
  unfold magValue
  rcases Nat.lt_or_ge n (2 ^ 23) with h | h
  · obtain rfl : q = 0 := by omega
    have h1 : (0 * 2 ^ 23 + n) / 2 ^ 23 = 0 := by omega
    rw [if_pos h1]
    omega
  · rcases Nat.lt_or_ge n (2 ^ 24) with h' | h'
    · have h1 : (q * 2 ^ 23 + n) / 2 ^ 23 = q + 1 := by omega
      have h2 : (q * 2 ^ 23 + n) % 2 ^ 23 = n - 2 ^ 23 := by omega
      rw [if_neg (by omega), h1, h2, Nat.add_sub_cancel, Nat.add_sub_cancel' h]
    · have hn24 : n = 2 ^ 24 := Nat.le_antisymm hn h'
      have h1 : (q * 2 ^ 23 + n) / 2 ^ 23 = q + 2 := by omega
      have h2 : (q * 2 ^ 23 + n) % 2 ^ 23 = 0 := by omega
      rw [if_neg (by omega), h1, h2, show q + 2 - 1 = 1 + q by omega, pow_add, hn24, ← mul_assoc, Nat.add_zero, ← pow_add]

/-- Every magnitude is a multiple of 2^q, or stands below 2^(23 + q). -/
theorem magValue_grid (b q : Nat) : (∃ j, magValue b = j * 2 ^ q) ∨ magValue b < 2 ^ 23 * 2 ^ q := by
  unfold magValue
  split_ifs with h
  · rcases Nat.eq_zero_or_pos q with rfl | hq
    · exact .inl ⟨b % 2 ^ 23, by simp⟩
    · right
      have : 1 ≤ 2 ^ q := Nat.one_le_two_pow
      nlinarith [Nat.mod_lt b (show 0 < 2 ^ 23 by norm_num)]
  · rcases Nat.lt_or_ge (b / 2 ^ 23 - 1) q with hq | hq
    · right
      have h1 : 2 ^ (b / 2 ^ 23 - 1) * 2 ≤ 2 ^ q := by
        rw [← pow_succ]
        exact Nat.pow_le_pow_right (by norm_num) (by omega)
      nlinarith [Nat.mod_lt b (show 0 < 2 ^ 23 by norm_num), Nat.one_le_two_pow (n := b / 2 ^ 23 - 1)]
    · left
      refine ⟨(2 ^ 23 + b % 2 ^ 23) * 2 ^ (b / 2 ^ 23 - 1 - q), ?_⟩
      rw [mul_assoc, ← pow_add]
      congr 2
      omega

/-- A magnitude that is no NaN has at most the value of infinity. -/
theorem magValue_le (b : Nat) (h : b ≤ f32InfBits) : magValue b ≤ 2 ^ 277 := by
  unfold magValue
  unfold f32InfBits at h
  split_ifs with h0
  · exact le_trans (Nat.le_of_lt (Nat.mod_lt _ (by norm_num))) (Nat.pow_le_pow_right (by norm_num) (by norm_num))
  · rcases Nat.lt_or_ge (b / 2 ^ 23) 255 with h1 | h1
    · have h2 : 2 ^ (b / 2 ^ 23 - 1) ≤ 2 ^ 253 := Nat.pow_le_pow_right (by norm_num) (by omega)
      have h3 : 2 ^ 23 + b % 2 ^ 23 ≤ 2 ^ 24 := by omega
      calc _ ≤ 2 ^ 24 * 2 ^ 253 := Nat.mul_le_mul h3 h2
        _ = 2 ^ 277 := by rw [← pow_add]
    · have h2 : b / 2 ^ 23 = 255 := by omega
      have h3 : b % 2 ^ 23 = 0 := by omega
      rw [h2, h3, Nat.add_zero, ← pow_add]

/-! The fields of a word, and of a packed one. -/

/-- The 31 bits below the sign. -/
def f32Mag (x : Word) : Nat := x.toNat % 2 ^ 31

theorem f32Exponent_mag (x : Word) : f32Exponent x = f32Mag x / 2 ^ 23 := by
  simp only [f32Exponent, f32Mag, BitVec.extractLsb'_toNat, Nat.shiftRight_eq_div_pow]
  omega

theorem f32Fraction_mag (x : Word) : f32Fraction x = f32Mag x % 2 ^ 23 := by
  simp only [f32Fraction, f32Mag, BitVec.extractLsb'_toNat, Nat.shiftRight_eq_div_pow]
  omega

theorem f32Value_mag (x : Word) : f32Value x = (if f32Sign x then -1 else 1) * (magValue (f32Mag x) : Int) := by
  unfold magValue
  rw [← f32Exponent_mag, ← f32Fraction_mag]
  rfl

theorem f32Pack_mag (s : Bool) (b : Nat) (h : b < 2 ^ 31) : f32Mag (f32Pack s b) = b := by
  unfold f32Mag f32Pack
  rw [BitVec.toNat_append, ← Nat.shiftLeft_add_eq_or_of_lt (by exact (BitVec.ofNat 31 b).isLt), Nat.shiftLeft_eq,
    Nat.add_comm, Nat.add_mul_mod_self_right, BitVec.toNat_ofNat, Nat.mod_mod, Nat.mod_eq_of_lt h]

theorem f32Pack_sign (s : Bool) (b : Nat) : f32Sign (f32Pack s b) = s := by
  unfold f32Sign f32Pack bit
  rw [BitVec.getLsbD_append]
  simp

theorem isNaN_mag (x : Word) : isNaN x = decide (f32InfBits < f32Mag x) := by
  have : f32Mag x < 2 ^ 31 := Nat.mod_lt _ (by norm_num)
  rw [isNaN, f32Exponent_mag, f32Fraction_mag]
  rw [Bool.eq_iff_iff, Bool.and_eq_true, beq_iff_eq, bne_iff_ne, decide_eq_true_eq, f32InfBits]
  omega

theorem isInf_mag (x : Word) : isInf x = decide (f32Mag x = f32InfBits) := by
  have : f32Mag x < 2 ^ 31 := Nat.mod_lt _ (by norm_num)
  rw [isInf, f32Exponent_mag, f32Fraction_mag]
  rw [Bool.eq_iff_iff, Bool.and_eq_true, beq_iff_eq, beq_iff_eq, decide_eq_true_eq, f32InfBits]
  omega

theorem isZero_mag (x : Word) : isZero x = decide (f32Mag x = 0) := by
  rw [isZero, Bool.eq_iff_iff, beq_iff_eq, decide_eq_true_eq, f32Mag, ← BitVec.toNat_inj, BitVec.extractLsb'_toNat, Nat.shiftRight_zero,
    BitVec.toNat_ofNat, Nat.zero_mod]

/-! What `roundEven` and `f32Round` do. -/

/-- `roundEven` does not pass a bound. -/
theorem roundEven_le (m k c : Nat) (h : m ≤ c * 2 ^ k) : roundEven m k ≤ c := by
  have hp := Nat.two_pow_pos k
  have hd := Nat.div_add_mod' m (2 ^ k)
  have hr := Nat.mod_lt m hp
  unfold roundEven
  simp only
  generalize m / 2 ^ k = q at *
  generalize m % 2 ^ k = r at *
  generalize 2 ^ k = P at *
  have hq : q ≤ c := by
    by_contra hc
    have : (c + 1) * P ≤ q * P := Nat.mul_le_mul_right _ (by omega)
    nlinarith
  rcases Nat.lt_or_ge q c with h1 | h1
  · split_ifs <;> omega
  · have : q = c := by omega
    subst this
    have : r = 0 := by omega
    subst this
    rw [if_pos (by omega)]

theorem le_roundEven (m k c : Nat) (h : c * 2 ^ k ≤ m) : c ≤ roundEven m k := by
  have hp := Nat.two_pow_pos k
  have : c ≤ m / 2 ^ k := (Nat.le_div_iff_mul_le hp).2 h
  unfold roundEven
  simp only
  split_ifs <;> omega

/-- `f32Round m e` is made of a field q and an integer n of units 2^(q − 149), n having 24 bits when q > 0 and n being the
integer nearest to the product in these units. -/
theorem f32Round_cases (m e : Nat) (hm : 0 < m) (he : 2 ≤ e) :
    ∃ q n : Nat, f32Round m e = min (q * 2 ^ 23 + n) f32InfBits ∧ n ≤ 2 ^ 24 ∧
      (0 < q → 2 ^ 23 ≤ n ∧ 2 ^ 23 * 2 ^ q * 2 ^ 149 ≤ m * 2 ^ (e - 2)) ∧
      (∀ j : Int, |(n : Int) * 2 ^ q * 2 ^ 149 - (m : Int) * 2 ^ (e - 2)| ≤ |j * 2 ^ q * 2 ^ 149 - (m : Int) * 2 ^ (e - 2)| ∧
        (|(n : Int) * 2 ^ q * 2 ^ 149 - (m : Int) * 2 ^ (e - 2)| = |j * 2 ^ q * 2 ^ 149 - (m : Int) * 2 ^ (e - 2)| → j ≠ n →
          n % 2 = 0)) := by
  have hl := Nat.log2_self_le (n := m) (by omega)
  have hu := Nat.lt_log2_self (n := m)
  refine ⟨m.log2 + e - 174, _, rfl, ?_, ?_, ?_⟩
  · split_ifs with h
    · refine le_trans (Nat.mul_le_mul_right _ (Nat.le_of_lt hu)) ?_
      rw [← pow_add]
      exact Nat.pow_le_pow_right (by norm_num) (by omega)
    · apply roundEven_le
      refine le_trans (Nat.le_of_lt hu) ?_
      rw [← pow_add]
      exact Nat.pow_le_pow_right (by norm_num) (by omega)
  · intro hq
    constructor
    · split_ifs with h
      · refine le_trans ?_ (Nat.mul_le_mul_right _ hl)
        rw [← pow_add]
        exact Nat.pow_le_pow_right (by norm_num) (by omega)
      · apply le_roundEven
        refine le_trans ?_ hl
        rw [← pow_add]
        exact Nat.pow_le_pow_right (by norm_num) (by omega)
    · refine le_trans ?_ (Nat.mul_le_mul_right _ hl)
      rw [← pow_add, ← pow_add, ← pow_add]
      exact Nat.pow_le_pow_right (by norm_num) (by omega)
  · intro j
    generalize m.log2 + e - 174 = q
    split_ifs with h
    · have hz : ((m * 2 ^ (e - (151 + q)) : Nat) : Int) * 2 ^ q * 2 ^ 149 - m * 2 ^ (e - 2) = 0 := by
        have : e - 2 = e - (151 + q) + q + 149 := by omega
        rw [this]
        push_cast
        ring
      rw [hz, abs_zero]
      refine ⟨abs_nonneg _, fun h1 h2 => absurd ?_ h2⟩
      have h3 := abs_eq_zero.1 h1.symm
      have h4 : (j - (m * 2 ^ (e - (151 + q)) : Nat)) * (2 ^ q * 2 ^ 149) = 0 := by linarith
      rcases mul_eq_zero.1 h4 with h5 | h5
      · linarith
      · exact absurd h5 (by positivity)
    · have hs : ∀ i : Int, i * 2 ^ q * 2 ^ 149 - m * 2 ^ (e - 2) = (i * 2 ^ (151 + q - e) - m) * 2 ^ (e - 2) := by
        intro i
        have : (2 : Int) ^ q * 2 ^ 149 = 2 ^ (151 + q - e) * 2 ^ (e - 2) := by
          rw [← pow_add, ← pow_add]; congr 1; omega
        rw [mul_assoc, this]; ring
      have hp : (0 : Int) < 2 ^ (e - 2) := by positivity
      rw [hs, hs, abs_mul, abs_mul, abs_of_pos hp]
      have hn := roundEven_nearest m (151 + q - e) j
      exact ⟨Int.mul_le_mul_of_nonneg_right hn.1 hp.le, fun h1 => hn.2 (Int.eq_of_mul_eq_mul_right hp.ne' h1)⟩

/-- `f32Round` gives the nearest magnitude, and the even one on a tie; infinity stands at 2^128 (R185, R186). -/
theorem f32Round_nearest (m e b : Nat) (hm : 0 < m) (he : 2 ≤ e) (hb : b ≤ f32InfBits) :
    |(magValue (f32Round m e) : Int) * 2 ^ 149 - m * 2 ^ (e - 2)| ≤ |(magValue b : Int) * 2 ^ 149 - m * 2 ^ (e - 2)| ∧
      (|(magValue (f32Round m e) : Int) * 2 ^ 149 - m * 2 ^ (e - 2)| = |(magValue b : Int) * 2 ^ 149 - m * 2 ^ (e - 2)| →
        magValue b ≠ magValue (f32Round m e) → f32Round m e % 2 = 0) := by
  obtain ⟨q, n, hr, hn, hq, hnear⟩ := f32Round_cases m e hm he
  rw [hr]
  rcases Nat.lt_or_ge q 254 with h254 | h254
  · have hle : q * 2 ^ 23 + n ≤ f32InfBits := by unfold f32InfBits; omega
    have hmod : (q * 2 ^ 23 + n) % 2 = n % 2 := by omega
    have hv : magValue (q * 2 ^ 23 + n) = n * 2 ^ q := magValue_scaled q n hn (by omega)
    rw [Nat.min_eq_left hle, hv, hmod]
    have hgrid : (∃ j, magValue b = j * 2 ^ q) ∨ (0 < q ∧ magValue b < 2 ^ 23 * 2 ^ q) := by
      rcases Nat.eq_zero_or_pos q with h0 | h0
      · exact .inl ⟨magValue b, by rw [h0, pow_zero, Nat.mul_one]⟩
      · exact (magValue_grid b q).imp_right fun h => ⟨h0, h⟩
    rcases hgrid with ⟨j, hj⟩ | ⟨h0, hlt⟩
    · rw [hj]
      have := hnear j
      push_cast
      refine ⟨this.1, fun h1 h2 => this.2 h1 fun h3 => h2 ?_⟩
      have h4 : j = n := by exact_mod_cast h3
      rw [h4]
    · obtain ⟨-, hp⟩ := hq h0
      have h1 := (hnear (2 ^ 23)).1
      have hp' : (2 ^ 23 : Int) * 2 ^ q * 2 ^ 149 ≤ m * 2 ^ (e - 2) := by exact_mod_cast hp
      have hlt' : (magValue b : Int) * 2 ^ 149 < (2 ^ 23 : Int) * 2 ^ q * 2 ^ 149 := by
        have : magValue b * 2 ^ 149 < 2 ^ 23 * 2 ^ q * 2 ^ 149 := Nat.mul_lt_mul_of_pos_right hlt (by positivity)
        exact_mod_cast this
      rw [abs_of_nonpos (by linarith : (2 ^ 23 : Int) * 2 ^ q * 2 ^ 149 - m * 2 ^ (e - 2) ≤ 0)] at h1
      rw [abs_of_nonpos (by linarith : (magValue b : Int) * 2 ^ 149 - m * 2 ^ (e - 2) ≤ 0)]
      rw [show ((n * 2 ^ q : Nat) : Int) = n * 2 ^ q by push_cast; rfl]
      exact ⟨by linarith, fun h2 => by linarith⟩
  · obtain ⟨-, hp⟩ := hq (by omega)
    have hinf : magValue f32InfBits = 2 ^ 277 := by
      have := magValue_scaled 254 (2 ^ 23) (by norm_num) (.inr le_rfl)
      rw [show 254 * 2 ^ 23 + 2 ^ 23 = f32InfBits by rfl] at this
      rw [this, ← pow_add]
    rw [Nat.min_eq_right (by unfold f32InfBits; have := (hq (by omega)).1; omega), hinf]
    have hbig : 2 ^ 277 * 2 ^ 149 ≤ m * 2 ^ (e - 2) := by
      refine le_trans ?_ hp
      rw [← pow_add, ← pow_add, ← pow_add]
      exact Nat.pow_le_pow_right (by norm_num) (by omega)
    have hbig' : (2 ^ 277 : Int) * 2 ^ 149 ≤ m * 2 ^ (e - 2) := by exact_mod_cast hbig
    have hz : (magValue b : Int) ≤ 2 ^ 277 := by exact_mod_cast magValue_le b hb
    have hz' : (magValue b : Int) * 2 ^ 149 ≤ 2 ^ 277 * 2 ^ 149 := Int.mul_le_mul_of_nonneg_right hz (by positivity)
    push_cast
    rw [abs_of_nonpos (by linarith), abs_of_nonpos (by linarith)]
    refine ⟨by linarith, fun h1 h2 => absurd ?_ h2⟩
    have h3 : (magValue b : Int) * 2 ^ 149 = 2 ^ 277 * 2 ^ 149 := by linarith
    have h4 : (magValue b : Int) = 2 ^ 277 := Int.eq_of_mul_eq_mul_right (by positivity) h3
    exact_mod_cast h4

/-- Bit 0 of a packed word. -/
theorem f32Pack_bit0 (s : Bool) (b : Nat) : (f32Pack s b).getLsbD 0 = decide (b % 2 = 1) := by
  unfold f32Pack
  rw [BitVec.getLsbD_append, if_pos (by norm_num), BitVec.getLsbD_ofNat, Nat.testBit_zero]
  simp

/-- No magnitude is above that of infinity. -/
theorem f32Round_le (m e : Nat) : f32Round m e ≤ f32InfBits := Nat.min_le_right _ _

end Sys2Proof.Laws
end

