-- ==== Sys2Proof/Laws/FrameDecoder.lean ====
section
/-! SUPPORT. What DECODE can do, said once (R126). -/

namespace Sys2Proof.Laws

open Sys2Proof.Machine

/-- The four ways DECODE ends, with the conditions that select each (R211). -/
theorem decodeBody_cases (s : State) :
    (s.frameLength < 5 ∧ decodeBody s = raise .frameTooShort (s.clearFrame false)) ∨
    (5 ≤ s.frameLength ∧ s.byteCount % 2 = 1 ∧
      decodeBody s = raise .oddByteCount (s.clearFrame (warnLen s.frameLength s.byteCount))) ∨
    (5 ≤ s.frameLength ∧ s.byteCount % 2 = 0 ∧ s.frameLength < 3 + s.byteCount ∧
      decodeBody s = raise .dataShort (s.clearFrame (warnLen s.frameLength s.byteCount))) ∨
    (5 ≤ s.frameLength ∧ s.byteCount % 2 = 0 ∧ 3 + s.byteCount ≤ s.frameLength ∧
      decodeBody s = succeed ({ s with frame := s.decodedFrame } : State).clearMap) := by
  unfold decodeBody
  simp only
  by_cases h1 : s.frameLength < 5
  · exact .inl ⟨h1, if_pos h1⟩
  · by_cases h2 : s.byteCount % 2 = 1
    · exact .inr (.inl ⟨by omega, h2, by rw [if_neg h1, if_pos h2]⟩)
    · by_cases h3 : s.frameLength < 3 + s.byteCount
      · exact .inr (.inr (.inl ⟨by omega, by omega, h3, by rw [if_neg h1, if_neg h2, if_pos h3]⟩))
      · exact .inr (.inr (.inr ⟨by omega, by omega, by omega, by rw [if_neg h1, if_neg h2, if_neg h3]⟩))

/-- However DECODE ends, it leaves some frame state and an empty map state, and nothing else changes (R121, R140). -/
theorem decodeBody_frame (s : State) :
    ∃ f, (decodeBody s).1 = { s with frame := f, mapping := .cleared } := by
  obtain ⟨-, h⟩ | ⟨-, -, h⟩ | ⟨-, -, -, h⟩ | ⟨-, -, -, h⟩ := decodeBody_cases s <;> rw [h] <;> exact ⟨_, rfl⟩

/-- The byte count is a byte. -/
theorem byteCount_lt (s : State) : s.byteCount < 256 := (s.fbByte 2).isLt

/-- REG_COUNT of a decoded frame is N / 2 (R135). -/
@[simp] theorem decodedFrame0_regCount (s : State) : s.decodedFrame0.regCount.toNat = s.byteCount / 2 := by
  have := byteCount_lt s
  simp only [State.decodedFrame0, BitVec.toNat_ofNat]
  omega

/-- REGS of a decoded frame (R133, R134). -/
@[simp] theorem decodedRegs_getElem (s : State) (i : Nat) (h : i < 128) :
    s.decodedRegs[i] = if i < s.byteCount / 2 then s.wireReg i else 0 := by
  simp [State.decodedRegs]

/-- A cleared frame is consistent. -/
theorem consistent_cleared (w : Bool) : (Frame.cleared w).Consistent where
  regCount := by simp
  header := by simp
  crcRaw := by simp
  crcOk := by simp
  past := by simp

/-- A decoded frame with an even byte count is consistent. -/
theorem consistent_decodedFrame (s : State) (h : s.byteCount % 2 = 0) : s.decodedFrame.Consistent where
  regCount := by
    intro _
    have hn : s.decodedFrame.frame0.byteCount.toNat = s.byteCount := rfl
    have hr : s.decodedFrame.frame0.regCount.toNat = s.byteCount / 2 := decodedFrame0_regCount s
    omega
  header := by simp [State.decodedFrame, State.decodedFrame0]
  crcRaw := by simp [State.decodedFrame, State.decodedFrame0]
  crcOk := by simp [State.decodedFrame, State.decodedFrame0, State.decodedFrame1]
  past := by
    intro i hi hp
    have hr : s.decodedFrame.frame0.regCount.toNat = s.byteCount / 2 := decodedFrame0_regCount s
    have hv : s.decodedFrame.regs[i] = if i < s.byteCount / 2 then s.wireReg i else 0 := decodedRegs_getElem s i hi
    rw [hv, if_neg (by omega)]

/-- DECODE leaves a consistent frame state. -/
theorem decodeBody_consistent (s : State) : (decodeBody s).1.frame.Consistent := by
  obtain ⟨-, h⟩ | ⟨-, -, h⟩ | ⟨-, -, -, h⟩ | ⟨-, he, -, h⟩ := decodeBody_cases s <;> rw [h]
  · exact consistent_cleared _
  · exact consistent_cleared _
  · exact consistent_cleared _
  · exact consistent_decodedFrame s he

/-! STATUS and ENG_STATE are no input of a command (R120). -/

/-- The same state with another STATUS and ENG_STATE. A command reads neither. -/
def patch (st : Status) (es : EngState) (s : State) : State := { s with status := st, engine := { s.engine with state := es } }

/-- DECODE on another STATUS and ENG_STATE differs in these alone. -/
theorem decodeBody_patch (st : Status) (es : EngState) (s : State) :
    decodeBody (patch st es s) = (patch st es (decodeBody s).1, (decodeBody s).2) := by
  unfold decodeBody
  simp only [show (patch st es s).frameLength = s.frameLength from rfl, show (patch st es s).byteCount = s.byteCount from rfl]
  split_ifs <;> rfl

end Sys2Proof.Laws
end

