-- ==== Sys2Proof/Laws/Mapper.lean ====
section
/-! SUPPORT. What the definition operations, MAP's loop, MAP and DECMAP can do, each said once. -/

namespace Sys2Proof.Laws

open Sys2Proof.Machine

/-- The state after a definition that stores nothing: only the cursor moves (R31). -/
theorem advance_eq (s : State) : s.advance = { s with engine := { s.engine with dcur := s.engine.dcur.map (· + 1) } } := rfl

/-- A store and the cursor's step are the state `stored` describes. -/
theorem storeSlot_advance (k : Byte) (v : Word) (t : Tag) (s : State) :
    (s.storeSlot k v t).advance = s.stored k v t := rfl

/-- A definition operation answers the state that MAP's loop goes on with. -/
theorem exec_definition (i : Instr) (s : State) (h : i.format = .definition) :
    exec i s = .next (runDefinition i s) := by
  cases i <;> first | rfl | simp [Instr.format] at h

/-- One bit of an extracted field. -/
theorem dtype_eq_zero (lo : Word) : lo.extractLsb' 16 2 = 0b00#2 ↔ lo.getLsbD 17 = false ∧ lo.getLsbD 16 = false := by
  constructor
  · intro h
    have h0 := congrArg (fun x => x.getLsbD 0) h
    have h1 := congrArg (fun x => x.getLsbD 1) h
    simp at h0 h1
    exact ⟨by simpa using h1, by simpa using h0⟩
  · intro h
    ext i hi
    simp only [BitVec.getElem_extractLsb']
    interval_cases i <;> simp_all

theorem dtype_eq_one (lo : Word) : lo.extractLsb' 16 2 = 0b01#2 ↔ lo.getLsbD 17 = false ∧ lo.getLsbD 16 = true := by
  constructor
  · intro h
    have h0 := congrArg (fun x => x.getLsbD 0) h
    have h1 := congrArg (fun x => x.getLsbD 1) h
    simp at h0 h1
    exact ⟨by simpa using h1, by simpa using h0⟩
  · intro h
    ext i hi
    simp only [BitVec.getElem_extractLsb']
    interval_cases i <;> simp_all

/-- A float definition reads INDEX and INDEX + 1, so the second range check covers the first. -/
theorem mapFloat_eq (wo : BitVec 3) (d : DefOperands) (s : State) :
    mapFloat wo d s = if s.regCount ≤ d.index.toNat + 1 then s
      else s.storeSlot d.slot (fmul32 (f32recon (s.reg d.index.toNat) (s.reg (d.index.toNat + 1)) wo) d.fscale) .f32 := by
  unfold mapFloat
  split_ifs <;> first | rfl | omega

/-- A state after a definition, from what the definition stores. -/
def afterStore (s : State) : Option (Byte × Word × Tag) → State
  | some (slot, v, tag) => s.stored slot v tag
  | none => s.advance

theorem mapInteger_advance (tag : Tag) (d : DefOperands) (s : State) :
    (mapInteger tag d s).advance = afterStore s (if s.regCount ≤ d.index.toNat then none
      else some (d.slot, fxscale (s.reg d.index.toNat) d.mult d.shift, tag)) := by
  unfold mapInteger
  split_ifs <;> rfl

theorem mapFloat_advance (wo : BitVec 3) (d : DefOperands) (s : State) :
    (mapFloat wo d s).advance = afterStore s (if s.regCount ≤ d.index.toNat then none
      else if s.regCount ≤ d.index.toNat + 1 then none
      else some (d.slot, fmul32 (f32recon (s.reg d.index.toNat) (s.reg (d.index.toNat + 1)) wo) d.fscale, .f32)) := by
  unfold mapFloat
  split_ifs <;> rfl

/-- What the definition in two words of DM does: the store that `storeOf` reads from the same words, or none. -/
theorem runDefinition_decode (s : State) (e : DefEntry) :
    runDefinition (decodeDefinition e.lo e.hi) s = afterStore s (s.storeOf e) := by
  unfold decodeDefinition State.storeOf
  simp only [dtype_eq_zero, dtype_eq_one]
  split_ifs with h1 h2 h3 h4 h5 h6 h7 <;>
    first
    | (exfalso; simp_all; done)
    | (simp only [runDefinition, mapU16, mapRaw, mapF32Abcd, mapF32Badc, mapF32Cdab, mapF32Dcba, mapF32Reserved,
        mapInteger_advance, mapFloat_advance, State.regCount, State.reg, decodeOperands, DefOperands.mult, DefOperands.fscale, *]
       rfl)

/-- The frame of what is stored: it depends on the frame state alone. -/
theorem storeOf_congr (s t : State) (h : t.frame = s.frame) : t.storeOf = s.storeOf := by
  obtain ⟨_, _, f, _⟩ := s
  obtain ⟨_, _, _, _⟩ := t
  change _ = f at h
  subst h
  rfl

/-- One store into the map state. -/
def storeInto (m : Mapping) (x : Byte × Word × Tag) : Mapping :=
  { m with value := m.value.set x.1.toNat x.2.1 x.1.isLt, slotInfo := m.slotInfo.set x.1.toNat ⟨true, x.2.2⟩ x.1.isLt }

/-- The state after the stores of some DM entries: the map state they leave and the cursor past them. -/
def afterEntries (s : State) (es : List DefEntry) : State :=
  { s with
    mapping := (es.filterMap s.storeOf).foldl storeInto s.mapping
    engine := { s.engine with dcur := s.engine.dcur.map (· + BitVec.ofNat 9 es.length) } }

theorem afterEntries_nil (s : State) : afterEntries s [] = s := by simp [afterEntries]

theorem afterEntries_cons (s : State) (e : DefEntry) (es : List DefEntry) :
    afterEntries s (e :: es) = afterEntries (afterStore s (s.storeOf e)) es := by
  have hc : s.engine.dcur.map (· + BitVec.ofNat 9 (es.length + 1))
      = (s.engine.dcur.map (· + 1)).map (· + BitVec.ofNat 9 es.length) := by
    rw [Option.map_map]
    congr 1
    funext c
    simp only [Function.comp_apply]
    rw [BitVec.add_assoc, Nat.add_comm, BitVec.ofNat_add]
    rfl
  cases h : s.storeOf e with
  | none =>
    have hs : (afterStore s none).storeOf = s.storeOf := storeOf_congr _ _ rfl
    rw [afterEntries, afterEntries, hs]
    simp [h, afterStore, advance_eq, hc]
  | some x =>
    obtain ⟨slot, v, tag⟩ := x
    have hs : (afterStore s (some (slot, v, tag))).storeOf = s.storeOf := storeOf_congr _ _ rfl
    rw [afterEntries, afterEntries, hs]
    simp [h, afterStore, State.stored, storeInto, hc]

/-- The DM entries that MAP's loop takes from the cursor on, in list order. -/
theorem listEntries_succ (s : State) (base n : Nat) :
    s.listEntries base (n + 1) = s.tables.dm[base]?.getD ⟨0, 0⟩ :: s.listEntries (base + 1) n := by
  simp only [State.listEntries, List.range_succ_eq_map, List.map_cons, List.map_map, Nat.add_zero]
  congr 2
  funext j
  simp only [Function.comp_apply]
  congr 2
  omega

/-- The entry at a cursor. -/
theorem definitionEntry_some (s : State) (c : BitVec 9) (h : s.engine.dcur = some c) :
    s.definitionEntry = s.tables.dm[c.toNat]?.getD ⟨0, 0⟩ := by
  rw [State.definitionEntry, h]

/-- Whatever it stores, a definition moves the cursor by 1 (R31). -/
theorem afterStore_dcur (s : State) (x : Option (Byte × Word × Tag)) :
    (afterStore s x).engine.dcur = s.engine.dcur.map (· + 1) := by
  cases x <;> rfl

/-- MAP's loop over n definitions leaves the stores of the n entries at the cursor, while the list stays in DM. -/
theorem runDefinitions_eq (n : Nat) (s : State) (c : BitVec 9) (hd : s.engine.dcur = some c) (h : c.toNat + n ≤ 256) :
    runDefinitions n s = afterEntries s (s.listEntries c.toNat n) := by
  induction n generalizing s c with
  | zero => simp [runDefinitions, State.listEntries, afterEntries_nil]
  | succ n ih =>
    rw [listEntries_succ, afterEntries_cons, runDefinitions, State.definition, runDefinition_decode,
      definitionEntry_some s c hd]
    generalize hx : s.storeOf (s.tables.dm[c.toNat]?.getD ⟨0, 0⟩) = x
    have ht : (afterStore s x).tables = s.tables := by
      cases x <;> rfl
    have hc : (c + 1).toNat = c.toNat + 1 := by
      rw [BitVec.toNat_add]
      simp
      omega
    rw [ih (afterStore s x) (c + 1) (by rw [afterStore_dcur, hd]; rfl) (by omega), hc]
    congr 1
    simp [State.listEntries, ht]

/-- The cursor after n definitions stands n further on (R31). -/
theorem runDefinitions_dcur (n : Nat) (s : State) :
    (runDefinitions n s).engine.dcur = s.engine.dcur.map (· + BitVec.ofNat 9 n) := by
  induction n generalizing s with
  | zero => simp [runDefinitions]
  | succ n ih =>
    rw [runDefinitions, ih, State.definition, runDefinition_decode, afterStore_dcur, Option.map_map]
    congr 1
    funext c
    simp only [Function.comp_apply]
    rw [BitVec.add_assoc, Nat.add_comm n 1, BitVec.ofNat_add]
    rfl

/-- What a slot holds after some stores: the last one to it, or what it held before. -/
theorem foldl_storeInto (xs : List (Byte × Word × Tag)) (m : Mapping) (k : Byte) :
    let t := xs.foldl storeInto m
    t.info = m.info ∧
    match xs.reverse.find? fun x => x.1 == k with
    | some (_, v, tag) => t.value[k.toNat] = v ∧ t.slotInfo[k.toNat] = ⟨true, tag⟩
    | none => t.value[k.toNat] = m.value[k.toNat] ∧ t.slotInfo[k.toNat] = m.slotInfo[k.toNat] := by
  induction xs using List.reverseRecOn with
  | nil => simp
  | append_singleton xs x ih =>
    obtain ⟨slot, v, tag⟩ := x
    simp only [List.foldl_append, List.foldl_cons, List.foldl_nil, List.reverse_append, List.reverse_cons,
      List.reverse_nil, List.nil_append, List.cons_append, List.find?_cons]
    simp only at ih
    refine ⟨ih.1, ?_⟩
    by_cases hk : slot = k
    · subst hk
      simp [storeInto]
    · have hn : slot.toNat ≠ k.toNat := fun h => hk (BitVec.eq_of_toNat_eq h)
      have hb : (slot == k) = false := by simp [hk]
      simp only [hb]
      have h2 := ih.2
      simpa [storeInto, Vector.getElem_set, hn] using h2

/-- The test that the lookup runs is the match of R150. -/
theorem hits_iff (s : State) (k : Fin 64) :
    s.tables.mt[k].hits s.frame.frame0.unitId s.frame.frame0.func = true ↔ s.entryMatches k := by
  simp [FuncEntry.hits, State.entryMatches, and_assoc]

/-- The lookup takes the entry of the least matching index (R150). -/
theorem lookup_of_leastHit (s : State) (k : Fin 64) (h : s.leastHit k) :
    s.lookupFunction s.frame.frame0.unitId s.frame.frame0.func = some s.tables.mt[k] := by
  rw [State.lookupFunction, List.find?_eq_some_iff_getElem]
  refine ⟨(hits_iff s k).2 h.1, k, by simp, by simp, fun j hj => ?_⟩
  have hj' : j < k.val := hj
  have := mt (hits_iff s ⟨j, by omega⟩).1 (h.2 ⟨j, by omega⟩ (by simpa [Fin.lt_def] using hj))
  simpa using this

/-- The lookup finds nothing where no entry matches (R150). -/
theorem lookup_of_functionMiss (s : State) (h : s.functionMiss) :
    s.lookupFunction s.frame.frame0.unitId s.frame.frame0.func = none := by
  rw [State.lookupFunction, List.find?_eq_none]
  intro e he
  obtain ⟨j, hj, rfl⟩ := List.mem_iff_getElem.mp he
  exact mt (hits_iff s ⟨j, by simpa using hj⟩).1 (h _)

/-- MAP's list in range: the stores of its entries over a cleared map state, NVALID counted, the cursor at its end. -/
theorem mapList_eq (dev : Byte) (e : FuncEntry) (s : State) (h : e.base.toNat + e.count.toNat ≤ 256) :
    mapList dev e s = succeed (afterEntries (s.startList dev e) (s.listEntries e.base.toNat e.count.toNat)).finishList := by
  have hn : ¬ 256 < e.base.toNat + e.count.toNat := by omega
  have hb : (e.base.setWidth 9).toNat = e.base.toNat := by
    have := e.base.isLt
    simp
    omega
  rw [mapList, if_neg hn, runDefinitions_eq _ _ (e.base.setWidth 9) rfl (by rw [hb]; exact h), hb]
  rfl

/-- How MAP ends, in every case: its error and what it leaves of everything but the map state and the cursor. -/
theorem mapBody_frame (s : State) :
    ∃ m c, (mapBody s).1 = { s with mapping := m, engine := { s.engine with dcur := c } } := by
  unfold mapBody
  simp only
  split_ifs with h1 h2
  · cases s.lookupFunction s.frame.frame0.unitId s.frame.frame0.func with
    | none => exact ⟨_, _, rfl⟩
    | some e =>
      by_cases he : e.base.toNat + e.count.toNat ≤ 256
      · simp only [mapList_eq _ _ _ he]
        exact ⟨_, _, rfl⟩
      · simp only [mapList, if_pos (show 256 < e.base.toNat + e.count.toNat by omega)]
        exact ⟨_, _, rfl⟩
  · exact ⟨_, _, rfl⟩
  · exact ⟨_, _, rfl⟩

/-- A definition operation on another STATUS and ENG_STATE differs in these alone. -/
theorem runDefinition_patch (i : Instr) (st : Status) (es : EngState) (s : State) :
    runDefinition i (patch st es s) = patch st es (runDefinition i s) := by
  have hint : ∀ tag d, mapInteger tag d (patch st es s) = patch st es (mapInteger tag d s) := by
    intro tag d
    unfold mapInteger
    change (if s.regCount ≤ _ then _ else _) = _
    split <;> rfl
  have hfl : ∀ wo d, mapFloat wo d (patch st es s) = patch st es (mapFloat wo d s) := by
    intro wo d
    unfold mapFloat
    change (if s.regCount ≤ _ then _ else if s.regCount ≤ _ then _ else _) = _
    split
    · rfl
    · split <;> rfl
  cases i <;> simp only [runDefinition, mapU16, mapRaw, mapF32Abcd, mapF32Badc, mapF32Cdab, mapF32Dcba, mapF32Reserved,
    hint, hfl] <;> rfl

/-- So does MAP's loop. -/
theorem runDefinitions_patch (n : Nat) (st : Status) (es : EngState) (s : State) :
    runDefinitions n (patch st es s) = patch st es (runDefinitions n s) := by
  induction n generalizing s with
  | zero => rfl
  | succ n ih =>
    rw [runDefinitions, runDefinitions, show (patch st es s).definition = s.definition from rfl, runDefinition_patch, ih]

/-- So does MAP. -/
theorem mapBody_patch (st : Status) (es : EngState) (s : State) :
    mapBody (patch st es s) = (patch st es (mapBody s).1, (mapBody s).2) := by
  have hl : ∀ dev e, mapList dev e (patch st es s) = (patch st es (mapList dev e s).1, (mapList dev e s).2) := by
    intro dev e
    unfold mapList
    rw [show (patch st es s).startList dev e = patch st es (s.startList dev e) from rfl, runDefinitions_patch]
    split <;> rfl
  unfold mapBody
  simp only [show (patch st es s).frame = s.frame from rfl, show (patch st es s).tables = s.tables from rfl,
    show ∀ u f, (patch st es s).lookupFunction u f = s.lookupFunction u f from fun _ _ => rfl]
  split
  · split
    · split
      · exact hl _ _
      · rfl
    · rfl
  · rfl

/-- A cursor that is there before MAP makes no difference to its completion (R31, R46). -/
theorem complete_mapBody_dcur (c : Option (BitVec 9)) (s : State) :
    complete (mapBody { s with engine := { s.engine with dcur := c } }) = complete (mapBody s) := by
  have hl : ∀ dev e, complete (mapList dev e { s with engine := { s.engine with dcur := c } }) = complete (mapList dev e s) := by
    intro dev e
    unfold mapList
    rw [show ({ s with engine := { s.engine with dcur := c } } : State).startList dev e = s.startList dev e from rfl]
    split <;> rfl
  unfold mapBody
  simp only [show ∀ u f, ({ s with engine := { s.engine with dcur := c } } : State).lookupFunction u f = s.lookupFunction u f
    from fun _ _ => rfl]
  split
  · split
    · split
      · exact hl _ _
      · rfl
    · rfl
  · rfl

end Sys2Proof.Laws
end

