-- ==== Sys2Proof/Laws/PerInstr.lean ====
section
/-! SUPPORT. Statements about every instruction as syntax, one lemma per constructor: its encoding lies in its row of the
opcode table. -/

namespace Sys2Proof.Laws.EncodingRow

/-- The number of words of a format (R85). -/
def wordCount : Format → Nat
  | .command => 1
  | .definition => 2

/-- The encoding has the length of its format, and its first word lies in the row of the opcode table that carries the
instruction's mnemonic. -/
def Statement (i : Instr) : Prop :=
  i.wf = true → (encode i).length = wordCount i.format ∧
    ∃ r ∈ i.format.rows, r.mnemonic = i.mnemonic ∧ r.holds ((encode i).headD 0) = true

/-- A reserved row's check on the opcode, from the check on the instruction. -/
theorem command_row (op : Byte) (mask pattern : Byte) (h : (op &&& mask == pattern) = true) :
    (commandWord op &&& mask.setWidth 32 == pattern.setWidth 32) = true := by
  have h : op &&& mask = pattern := by simpa using h
  subst h
  have : commandWord op = op.setWidth 32 := by
    ext i hi
    simp only [commandWord, ← BitVec.getLsbD_eq_getElem, BitVec.getLsbD_append, BitVec.getLsbD_setWidth]
    interval_cases i <;> simp
  simp [this]

theorem nop : Statement .nop := fun _ => ⟨rfl, by decide⟩
theorem decode : Statement .decode := fun _ => ⟨rfl, by decide⟩
theorem map : Statement .map := fun _ => ⟨rfl, by decide⟩
theorem decmap : Statement .decmap := fun _ => ⟨rfl, by decide⟩
theorem f32 : Statement .f32 := fun _ => ⟨rfl, by decide⟩
theorem scale : Statement .scale := fun _ => ⟨rfl, by decide⟩
theorem fmul : Statement .fmul := fun _ => ⟨rfl, by decide⟩
theorem reserved07 : Statement .reserved07 := fun _ => ⟨rfl, by decide⟩
theorem reserved08 (op : Byte) : Statement (.reserved08 op) := fun h =>
  ⟨rfl, ⟨"RESERVED__BAD_CMD__0x08-0x0F", .command, 0xF8, 0x08⟩, (by show _ ∈ commandRows; decide), rfl, command_row op 0xF8 0x08 h⟩
theorem reserved10 (op : Byte) : Statement (.reserved10 op) := fun h =>
  ⟨rfl, ⟨"RESERVED__BAD_CMD__0x10-0x1F", .command, 0xF0, 0x10⟩, (by show _ ∈ commandRows; decide), rfl, command_row op 0xF0 0x10 h⟩
theorem reserved20 (op : Byte) : Statement (.reserved20 op) := fun h =>
  ⟨rfl, ⟨"RESERVED__BAD_CMD__0x20-0x3F", .command, 0xE0, 0x20⟩, (by show _ ∈ commandRows; decide), rfl, command_row op 0xE0 0x20 h⟩
theorem reserved40 (op : Byte) : Statement (.reserved40 op) := fun h =>
  ⟨rfl, ⟨"RESERVED__BAD_CMD__0x40-0x7F", .command, 0xC0, 0x40⟩, (by show _ ∈ commandRows; decide), rfl, command_row op 0xC0 0x40 h⟩
theorem reserved80 (op : Byte) : Statement (.reserved80 op) := fun h =>
  ⟨rfl, ⟨"RESERVED__BAD_CMD__0x80-0xFF", .command, 0x80, 0x80⟩, (by show _ ∈ commandRows; decide), rfl, command_row op 0x80 0x80 h⟩

/-- The bits of DEF_LO that a row fixes, from DTYPE and WO: with both cut out of the word, a row's mask reads them alone. -/
theorem definition_row (t : BitVec 2) (wo : BitVec 3) (d : DefOperands) :
    defLoWord t wo d &&& 0x001F0000#32 = (wo ++ t).setWidth 32 <<< 16 := by
  ext i hi
  simp only [defLoWord, ← BitVec.getLsbD_eq_getElem, BitVec.getLsbD_and, BitVec.getLsbD_append, BitVec.getLsbD_shiftLeft,
    BitVec.getLsbD_setWidth]
  interval_cases i <;> simp

/-- A mask inside the field of DTYPE and WO. -/
theorem definition_mask (t : BitVec 2) (wo : BitVec 3) (d : DefOperands) (mask : Word)
    (hm : mask &&& 0x001F0000#32 = mask) :
    defLoWord t wo d &&& mask = ((wo ++ t).setWidth 32 <<< 16) &&& mask := by
  rw [← definition_row t wo d, BitVec.and_assoc, BitVec.and_comm 0x001F0000#32, hm]

/-- A definition's row, from the bits of DTYPE and WO alone. -/
theorem definition_holds (t : BitVec 2) (wo : BitVec 3) (d : DefOperands) (r : OpcodeRow)
    (hm : r.mask &&& 0x001F0000#32 = r.mask) (h : r.holds ((wo ++ t).setWidth 32 <<< 16) = true) :
    r.holds (defLoWord t wo d) = true := by
  rwa [OpcodeRow.holds, definition_mask _ _ _ _ hm]

theorem u16 (wo : BitVec 3) (d : DefOperands) : Statement (.u16 wo d) := fun _ =>
  ⟨rfl, ⟨"U16", .definition, 0x00030000, 0x00000000⟩, (by show _ ∈ definitionRows; decide), rfl,
    definition_holds _ _ _ _ (by decide) (by clear * -; revert wo; decide)⟩
theorem f32Abcd (d : DefOperands) : Statement (.f32Abcd d) := fun _ =>
  ⟨rfl, ⟨"F32.ABCD", .definition, 0x001F0000, 0x00010000⟩, (by show _ ∈ definitionRows; decide), rfl,
    definition_holds _ _ _ _ (by decide) (by decide)⟩
theorem f32Badc (d : DefOperands) : Statement (.f32Badc d) := fun _ =>
  ⟨rfl, ⟨"F32.BADC", .definition, 0x001F0000, 0x00050000⟩, (by show _ ∈ definitionRows; decide), rfl,
    definition_holds _ _ _ _ (by decide) (by decide)⟩
theorem f32Cdab (d : DefOperands) : Statement (.f32Cdab d) := fun _ =>
  ⟨rfl, ⟨"F32.CDAB", .definition, 0x001F0000, 0x00090000⟩, (by show _ ∈ definitionRows; decide), rfl,
    definition_holds _ _ _ _ (by decide) (by decide)⟩
theorem f32Dcba (d : DefOperands) : Statement (.f32Dcba d) := fun _ =>
  ⟨rfl, ⟨"F32.DCBA", .definition, 0x001F0000, 0x000D0000⟩, (by show _ ∈ definitionRows; decide), rfl,
    definition_holds _ _ _ _ (by decide) (by decide)⟩
theorem f32Reserved (wo : BitVec 3) (d : DefOperands) : Statement (.f32Reserved wo d) := fun h =>
  ⟨rfl, ⟨"F32.RESERVED_WO__as_ABCD", .definition, 0x00130000, 0x00110000⟩, (by show _ ∈ definitionRows; decide), rfl,
    definition_holds _ _ _ _ (by decide) (by simp only [Instr.wf] at h; clear * - h; revert wo; decide)⟩
theorem raw (dtype : BitVec 2) (wo : BitVec 3) (d : DefOperands) : Statement (.raw dtype wo d) := fun h =>
  ⟨rfl, ⟨"RAW", .definition, 0x00020000, 0x00020000⟩, (by show _ ∈ definitionRows; decide), rfl,
    definition_holds _ _ _ _ (by decide) (by simp only [Instr.wf] at h; clear * - h; revert dtype wo; decide)⟩

end Sys2Proof.Laws.EncodingRow
end

