-- ==== Sys2Proof/Laws/Step.lean ====
section
/-! SUPPORT. What a step can do, said once, and that commands are completions of their bodies. -/

namespace Sys2Proof.Laws

open Sys2Proof.Machine

/-- How a command ends, by its rule (R114, R115, R126, R146, R162, R179, R189, R195). -/
def commandBody : Instr → State → Result
  | .nop, s => succeed s
  | .decode, s => decodeBody s
  | .map, s => mapBody s
  | .decmap, s => decmapBody s
  | .f32, s => s.withResult (f32recon s.arg0Low s.arg1Low s.argWordOrder)
  | .scale, s => s.withResult (fxscale s.arg0Low s.arg1Low s.argShift)
  | .fmul, s => s.withResult (fmul32 s.inputs.arg0 s.inputs.arg1)
  | _, s => badCommand s

/-- Every command is the completion of its body (R113). -/
theorem exec_command (i : Instr) (s : State) (h : i.format = .command) : exec i s = .next (complete (commandBody i s)) := by
  cases i <;> first | rfl | simp [Instr.format] at h

/-- The command the engine runs is a command. -/
theorem command_format (s : State) : s.command.format = .command := decodeCommand_format _

/-- Every instruction answers a next state. -/
theorem exec_total (i : Instr) (s : State) : ∃ t, exec i s = .next t := by
  cases i <;> exact ⟨_, rfl⟩

/-- DECMAP's body is DECODE's, or MAP's on the state that DECODE leaves (R162). -/
theorem decmapBody_eq (s : State) :
    decmapBody s = if (decodeBody s).2 = .ok then mapBody (decodeBody s).1 else decodeBody s := by
  unfold decmapBody
  rcases decodeBody s with ⟨t, e⟩
  cases e <;> rfl

/-- A command's body writes the frame and map state, RESULT and the cursor at most (R121). -/
theorem commandBody_frame (i : Instr) (s : State) :
    ∃ f m r c, (commandBody i s).1 =
      { s with frame := f, mapping := m, result := r, engine := { s.engine with dcur := c } } := by
  cases i with
  | decode =>
    obtain ⟨f, h⟩ := decodeBody_frame s
    exact ⟨f, .cleared, s.result, s.engine.dcur, h⟩
  | map =>
    obtain ⟨m, c, h⟩ := mapBody_frame s
    exact ⟨s.frame, m, s.result, c, h⟩
  | decmap =>
    obtain ⟨f, hf⟩ := decodeBody_frame s
    simp only [commandBody, decmapBody_eq]
    split_ifs with h
    · obtain ⟨m, c, hm⟩ := mapBody_frame (decodeBody s).1
      exact ⟨f, m, s.result, c, by rw [hm, hf]⟩
    · exact ⟨f, .cleared, s.result, s.engine.dcur, hf⟩
  | _ => exact ⟨_, _, _, _, rfl⟩

/-- The ways a step ends. -/
theorem step_cases (s t : State) (h : step s = .next t) :
    (∃ rest, (s.sched = .engine :: rest ∨ s.sched = [] ∧ rest = []) ∧ s.engine.state = .busy ∧
      t = complete (commandBody s.command { s with sched := rest })) ∨
    (∃ rest, (s.sched = .engine :: rest ∨ s.sched = [] ∧ rest = []) ∧ s.engine.state = .idle ∧
      t = { s with sched := rest }) ∨
    (∃ addr rest, s.sched = .read addr :: rest ∧ t = State.busRead addr { s with sched := rest }) ∨
    (∃ addr v rest, s.sched = .write addr v :: rest ∧ t = State.busWrite addr v { s with sched := rest }) ∨
    (∃ rest, s.sched = .reset :: rest ∧ t = State.resetEvent { s with sched := rest }) := by
  unfold step at h
  split at h
  case h_1 hs =>
    have hself : s = { s with sched := [] } := by rw [← hs]
    unfold engineStep at h
    split at h
    case h_1 hb =>
      rw [exec_command _ _ (command_format s)] at h
      cases h
      exact .inl ⟨[], .inr ⟨hs, rfl⟩, hb, by rw [← hself]⟩
    case h_2 hb =>
      cases h
      exact .inr (.inl ⟨[], .inr ⟨hs, rfl⟩, hb, hself⟩)
  case h_2 rest hs =>
    unfold engineStep at h
    split at h
    case h_1 hb =>
      rw [exec_command _ _ (command_format _)] at h
      cases h
      exact .inl ⟨rest, .inl hs, hb, rfl⟩
    case h_2 hb =>
      cases h
      exact .inr (.inl ⟨rest, .inl hs, hb, rfl⟩)
  case h_3 addr rest hs =>
    cases h
    exact .inr (.inr (.inl ⟨addr, rest, hs, rfl⟩))
  case h_4 addr v rest hs =>
    cases h
    exact .inr (.inr (.inr (.inl ⟨addr, v, rest, hs, rfl⟩)))
  case h_5 rest hs =>
    cases h
    exact .inr (.inr (.inr (.inr ⟨rest, hs, rfl⟩)))

end Sys2Proof.Laws
end

