-- ==== Sys2Proof/Laws/Words.lean ====
section
/-! SUPPORT. The words of 10_state.md, read back at the bits of each field (R25, R26, R29, R30, R40 to R42). -/

namespace Sys2Proof.Laws

open Sys2Proof.Machine

/-- A one-bit word is its bit. -/
@[simp] theorem getElem_bit (b : Bool) : (bit b)[0] = b := by simp [bit]

@[simp] theorem frame0_word_unitId (f : Frame0) : f.word.extractLsb' 0 8 = f.unitId := by
  ext i hi
  simp only [Frame0.word, BitVec.getElem_extractLsb', BitVec.getLsbD_append]
  interval_cases i <;> simp

@[simp] theorem frame0_word_func (f : Frame0) : f.word.extractLsb' 8 8 = f.func := by
  ext i hi
  simp only [Frame0.word, BitVec.getElem_extractLsb', BitVec.getLsbD_append]
  interval_cases i <;> simp

@[simp] theorem frame0_word_byteCount (f : Frame0) : f.word.extractLsb' 16 8 = f.byteCount := by
  ext i hi
  simp only [Frame0.word, BitVec.getElem_extractLsb', BitVec.getLsbD_append]
  interval_cases i <;> simp

@[simp] theorem frame0_word_regCount (f : Frame0) : f.word.extractLsb' 24 7 = f.regCount := by
  ext i hi
  simp only [Frame0.word, BitVec.getElem_extractLsb', BitVec.getLsbD_append]
  interval_cases i <;> simp

@[simp] theorem frame0_word_valid (f : Frame0) : f.word[31] = f.valid := by
  simp only [Frame0.word, ← BitVec.getLsbD_eq_getElem, BitVec.getLsbD_append]
  simp

@[simp] theorem frame1_word_crcRaw (f : Frame1) : f.word.extractLsb' 0 16 = f.crcRaw := by
  ext i hi
  simp only [Frame1.word, BitVec.getElem_extractLsb', BitVec.getLsbD_append]
  interval_cases i <;> simp

@[simp] theorem frame1_word_crcOk (f : Frame1) : f.word[16] = f.crcOk := by
  simp only [Frame1.word, ← BitVec.getLsbD_eq_getElem, BitVec.getLsbD_append]
  simp

@[simp] theorem frame1_word_warnLen (f : Frame1) : f.word[17] = f.warnLen := by
  simp only [Frame1.word, ← BitVec.getLsbD_eq_getElem, BitVec.getLsbD_append]
  simp

@[simp] theorem mapInfo_word_deviceId (m : MapInfo) : m.word.extractLsb' 0 8 = m.deviceId := by
  ext i hi
  simp only [MapInfo.word, BitVec.getElem_extractLsb', BitVec.getLsbD_append]
  interval_cases i <;> simp

@[simp] theorem mapInfo_word_devValid (m : MapInfo) : m.word[8] = m.devValid := by
  simp only [MapInfo.word, ← BitVec.getLsbD_eq_getElem, BitVec.getLsbD_append]
  simp

@[simp] theorem mapInfo_word_funcHit (m : MapInfo) : m.word[9] = m.funcHit := by
  simp only [MapInfo.word, ← BitVec.getLsbD_eq_getElem, BitVec.getLsbD_append]
  simp

@[simp] theorem mapInfo_word_nvalid (m : MapInfo) : m.word.extractLsb' 16 9 = m.nvalid := by
  ext i hi
  simp only [MapInfo.word, BitVec.getElem_extractLsb', BitVec.getLsbD_append]
  interval_cases i <;> simp

@[simp] theorem slotInfo_word_valid (e : SlotInfo) : e.word[0] = e.valid := by
  simp only [SlotInfo.word, ← BitVec.getLsbD_eq_getElem, BitVec.getLsbD_append]
  simp

@[simp] theorem slotInfo_word_tag (e : SlotInfo) : e.word.extractLsb' 1 2 = e.tag.code := by
  ext i hi
  simp only [SlotInfo.word, BitVec.getElem_extractLsb', BitVec.getLsbD_append]
  interval_cases i <;> simp

@[simp] theorem unitEntry_word_deviceId (e : UnitEntry) : e.word.extractLsb' 0 8 = e.deviceId := by
  ext i hi
  simp only [UnitEntry.word, BitVec.getElem_extractLsb', BitVec.getLsbD_append]
  interval_cases i <;> simp

@[simp] theorem unitEntry_word_valid (e : UnitEntry) : e.word[8] = e.valid := by
  simp only [UnitEntry.word, ← BitVec.getLsbD_eq_getElem, BitVec.getLsbD_append]
  simp

@[simp] theorem funcEntry_keyWord_unit (e : FuncEntry) : e.keyWord.extractLsb' 0 8 = e.unit := by
  ext i hi
  simp only [FuncEntry.keyWord, BitVec.getElem_extractLsb', BitVec.getLsbD_append]
  interval_cases i <;> simp

@[simp] theorem funcEntry_keyWord_func (e : FuncEntry) : e.keyWord.extractLsb' 8 8 = e.func := by
  ext i hi
  simp only [FuncEntry.keyWord, BitVec.getElem_extractLsb', BitVec.getLsbD_append]
  interval_cases i <;> simp

@[simp] theorem funcEntry_keyWord_valid (e : FuncEntry) : e.keyWord[16] = e.valid := by
  simp only [FuncEntry.keyWord, ← BitVec.getLsbD_eq_getElem, BitVec.getLsbD_append]
  simp

@[simp] theorem funcEntry_listWord_base (e : FuncEntry) : e.listWord.extractLsb' 0 8 = e.base := by
  ext i hi
  simp only [FuncEntry.listWord, BitVec.getElem_extractLsb', BitVec.getLsbD_append]
  interval_cases i <;> simp

@[simp] theorem funcEntry_listWord_count (e : FuncEntry) : e.listWord.extractLsb' 16 9 = e.count := by
  ext i hi
  simp only [FuncEntry.listWord, BitVec.getElem_extractLsb', BitVec.getLsbD_append]
  interval_cases i <;> simp

end Sys2Proof.Laws
end

