-- ==== Sys2Proof/Tests/Slice0.lean ====
section
/-! SUPPORT. The model's own tests. Expected values come from spec/30_encoding.md and spec/95_test_vectors.md, whose row is
named in each docstring; and for every statement with hypotheses one witness that meets them. -/

namespace Sys2Proof.Tests

open Sys2Proof.Machine

/-! States built by host writes to the reset state. -/

/-- The next state, if there is one. -/
def after : Host.Outcome State Fault Refusal → State
  | .next t => t
  | .fault _ => .reset
  | .refused _ => .reset

/-- Host writes to locations, in order. -/
def poke (ws : List (Loc × Word)) (s : State) : State := ws.foldl (fun s w => s.writeLoc w.2 w.1) s

/-- A frame in FB, and its length in FLEN. -/
def framed (bytes : List Byte) (s : State) : State :=
  poke ((List.range ((bytes.length + 3) / 4)).map (fun w => (Loc.fb (Fin.ofNat 128 w), frameWord bytes w))
    ++ [(Loc.flen, BitVec.ofNat 32 bytes.length)]) s

/-- The decoded frame of R144: unit 1, function 3, registers 0x00FA and 0x4120. -/
def frame144 : Frame := ⟨⟨1, 3, 4, 2, true⟩, ⟨0x8AEB, true, false⟩, ((fill 128 0).set 0 0x00FA).set 1 0x4120⟩

/-- The common configuration of 95_test_vectors.md 2.2 with a list (base, count) for unit 1 and function 3, and R144's frame. -/
def mapState (listWord : Word) (ws : List (Loc × Word)) : State :=
  { poke ([(.ut 1, 0x107), (.mtKey 0, 0x10301), (.mtList 0, listWord)] ++ ws) State.reset with frame := frame144 }

/-- A state whose engine runs an opcode, with the turns to come. -/
def busy (op : Byte) (turns : List Turn) (s : State) : State := { s.accept op with sched := turns }

/-- Operands of a definition with its reserved fields 0. -/
def operands (index slot : Byte) (shift : BitVec 5) (hi : Word) : DefOperands := ⟨index, slot, shift, 0, 0, hi⟩

/-! WellFormed refuses a term outside each row's range. -/

theorem test_wf_refuses_07_as_08 : (Instr.reserved08 0x07).wf = false := by decide
theorem test_wf_refuses_20_as_10 : (Instr.reserved10 0x20).wf = false := by decide
theorem test_wf_refuses_40_as_20 : (Instr.reserved20 0x40).wf = false := by decide
theorem test_wf_refuses_80_as_40 : (Instr.reserved40 0x80).wf = false := by decide
theorem test_wf_refuses_7F_as_80 : (Instr.reserved80 0x7F).wf = false := by decide
theorem test_wf_refuses_wo3_as_reserved : (Instr.f32Reserved 0b011 (operands 0 0 0 0)).wf = false := by decide
theorem test_wf_refuses_dtype1_as_raw : (Instr.raw 0b01 0 (operands 0 0 0 0)).wf = false := by decide

/-! A word written out for every constructor (R88, R89, R91 to R94). -/

theorem test_decode_nop : decode .command [0xFFFFFF00] = .ok (.nop, []) := by rfl
theorem test_decode_decode : decode .command [0x00000001] = .ok (.decode, []) := by rfl
theorem test_decode_map : decode .command [0x00000002] = .ok (.map, []) := by rfl
theorem test_decode_decmap : decode .command [0x00000003] = .ok (.decmap, []) := by rfl
theorem test_decode_f32 : decode .command [0x00000004] = .ok (.f32, []) := by rfl
theorem test_decode_scale : decode .command [0x00000005] = .ok (.scale, []) := by rfl
theorem test_decode_fmul : decode .command [0x00000106] = .ok (.fmul, []) := by rfl
theorem test_decode_reserved07 : decode .command [0x00000007] = .ok (.reserved07, []) := by rfl
theorem test_decode_reserved08 : decode .command [0x0000000F] = .ok (.reserved08 0x0F, []) := by rfl
theorem test_decode_reserved10 : decode .command [0x00000010] = .ok (.reserved10 0x10, []) := by rfl
theorem test_decode_reserved20 : decode .command [0x0000003F] = .ok (.reserved20 0x3F, []) := by rfl
theorem test_decode_reserved40 : decode .command [0x00000040] = .ok (.reserved40 0x40, []) := by rfl
theorem test_decode_reserved80 : decode .command [0x000000FF] = .ok (.reserved80 0xFF, []) := by rfl

/-- 000 10000 000 000 00 00000011 00000101 (S, DTYPE, SLOT, INDEX). -/
theorem test_decode_u16 : decode .definition [0x10000305, 0x0000199A] = .ok (.u16 0 (operands 5 3 16 0x199A), []) := by rfl

/-- P2's DEF 5. -/
theorem test_decode_f32Abcd :
    decode .definition [0x00010B02, 0x3F800000] = .ok (.f32Abcd (operands 2 11 0 0x3F800000), []) := by rfl

/-- 000 00000 000 001 01 with SLOT 10 and INDEX 0. -/
theorem test_decode_f32Badc :
    decode .definition [0x00050A00, 0x40000000] = .ok (.f32Badc (operands 0 10 0 0x40000000), []) := by rfl

/-- P2's DEF 4. -/
theorem test_decode_f32Cdab :
    decode .definition [0x00090A00, 0x40000000] = .ok (.f32Cdab (operands 0 10 0 0x40000000), []) := by rfl

/-- 101 00000 110 011 01 with SLOT 10 and INDEX 0: the reserved fields are kept. -/
theorem test_decode_f32Dcba :
    decode .definition [0xA0CD0A00, 0x40000000] = .ok (.f32Dcba ⟨0, 10, 0, 0b110, 0b101, 0x40000000⟩, []) := by rfl

/-- P2's DEF 8. -/
theorem test_decode_f32Reserved :
    decode .definition [0x00150A01, 0x3F800000] = .ok (.f32Reserved 0b101 (operands 1 10 0 0x3F800000), []) := by rfl

/-- DTYPE 11 with WO 111 and S 31. -/
theorem test_decode_raw :
    decode .definition [0x1F1F0D02, 0x00000001] = .ok (.raw 0b11 0b111 (operands 2 13 31 1), []) := by rfl

theorem test_decode_rejects_a_missing_word : decode .definition [0x00000000] = .error .truncatedDefinition := by rfl

/-- A row's word is read with the row's format. -/
theorem test_decodeTableWord : decodeTableWord 8 0x05 = some .scale ∧
    decodeTableWord 24 0x00050000 = some (.f32Badc (operands 0 0 0 0)) := ⟨rfl, rfl⟩

/-- B3: opcode 0xFF as the first instruction after reset. -/
theorem test_withFetchWord_command : (after (step (State.reset.withFetchWord 8 0xFF))).statusWord = 0x0000FF62 := by
  decide +kernel

/-- A definition as the only one of the first MAP after reset: the function hit shows that the list was reached, and DCUR ended
with the command. -/
theorem test_withFetchWord_definition : let t := after (step (State.reset.withFetchWord 24 0x00020000))
    t.statusWord = 0x00000202 ∧ t.mapping.info.funcHit = true ∧ t.engine.dcur = none := by decide +kernel

/-! Commands. -/

/-- B2, and R114's corner case: the sticky bits stay. -/
theorem test_nop : (after (exec .nop (busy 0x00 [] { State.reset with status := ⟨false, .badCmd, 7, true, false⟩ }))).statusWord
    = 0x00010002 := by decide +kernel

/-- B3. -/
theorem test_reserved07 : (after (exec .reserved07 (busy 0x07 [] .reset))).statusWord = 0x00000762 := by decide +kernel

/-- D5: DATA_SHORT with WARN_LEN kept. -/
theorem test_decode_short : let t := after (exec .decode (framed [1, 3, 4, 0, 1, 2] .reset))
    t.status.err = .dataShort ∧ t.frame.frame0.word = 0 ∧ t.frame.frame1.word = 0x00020000 := by decide +kernel

/-- D6: FLEN = 3 + N, so the CRC overlaps the data. -/
theorem test_decode_overlap : let t := after (exec .decode (framed [1, 3, 4, 0, 1, 2, 3] .reset))
    t.status.err = .ok ∧ t.frame.frame0.word = 0x82040301 ∧ t.frame.frame1.word = 0x00030302 ∧ t.reg 0 = 0x0001 ∧
      t.reg 1 = 0x0203 ∧ t.reg 2 = 0 := by decide +kernel

/-- M9 with M17's definition: the least matching entry's list runs, WO and DEF_HI[31:16] are ignored. -/
theorem test_map_least_entry : let t := after (exec .map (mapState 0x00010000
      [(.mtKey 5, 0x10301), (.mtList 5, 0x00010001), (.defLo 0, 0x000C0000), (.defHi 0, 0xFFFF0001), (.defLo 1, 0x00000900),
        (.defHi 1, 1)]))
    t.mapping.info.word = 0x00010307 ∧ t.readLoc (.value 0) = 0x000000FA ∧ t.readLoc (.slotInfo 0) = 1 ∧
      t.readLoc (.slotInfo 9) = 0 := by decide +kernel

/-- M15: the last store of a slot wins, TAG included, and NVALID counts the slot once. -/
theorem test_map_last_wins : let t := after (exec .map (mapState 0x00020000
      [(.defLo 0, 0x00000700), (.defHi 0, 1), (.defLo 1, 0x00010700), (.defHi 1, 0x3F800000)]))
    t.mapping.info.word = 0x00010307 ∧ t.readLoc (.value 7) = 0x00FA4120 ∧ t.readLoc (.slotInfo 7) = 3 := by decide +kernel

/-- P1: DECMAP from FB to the slots. -/
theorem test_decmap : let t := after (exec .decmap (busy 0x03 [] (framed [1, 3, 4, 0x00, 0xFA, 0x41, 0x20, 0xEB, 0x8A]
      (poke [(.ut 1, 0x107), (.mtList 0, 0x00020000), (.mtKey 0, 0x00010301), (.defHi 0, 0x199A), (.defLo 0, 0x10000000),
        (.defHi 1, 1), (.defLo 1, 0x00000101)] .reset))))
    t.statusWord = 0x00000302 ∧ t.frame.frame0.word = 0x82040301 ∧ t.frame.frame1.word = 0x00018AEB ∧
      t.mapping.info.word = 0x00020307 ∧ t.readLoc (.value 0) = 0x19 ∧ t.readLoc (.value 1) = 0x4120 := by decide +kernel

/-- X4: CFG_ERR leaves the new frame and clears the map state. -/
theorem test_decmap_cfg : let t := after (exec .decmap (framed [1, 3, 4, 0x00, 0xFA, 0x41, 0x20, 0xEB, 0x8A]
      (mapState 0x000200FF [])))
    t.status.err = .cfgErr ∧ t.frame.frame0.word = 0x82040301 ∧ t.mapping.info.word = 0 := by decide +kernel

/-- F6: DCBA, and ARG0[31:16] is ignored. -/
theorem test_f32 : (after (exec .f32 (poke [(.arg0, 0xABCD5678), (.arg1, 0x1234), (.arg2, 3)] .reset))).result = 0x34127856 := by
  decide +kernel

/-- S22: only the operand fields are read. -/
theorem test_scale : (after (exec .scale (poke [(.arg0, 0xABCD00FA), (.arg1, 0xFFFF199A), (.arg2, 0xFFFFFFF0)] .reset))).result
    = 0x19 := by decide +kernel

/-- Q1. -/
theorem test_fmul : (after (exec .fmul (poke [(.arg0, 0x3FC00000), (.arg1, 0x40000000)] .reset))).result = 0x40400000 := by
  decide +kernel

/-! Definition operations, on R144's frame or one register of it changed. -/

/-- M18: a negative multiplier, rounded down; the cursor moves on. -/
theorem test_u16 : let t := after (exec (.u16 0 (operands 0 0 16 0xE666)) { mapState 0 [] with engine := ⟨.busy, 2, some 0⟩ })
    t.readLoc (.value 0) = 0xFFFFFFE6 ∧ t.readLoc (.slotInfo 0) = 1 ∧ t.engine.dcur = some 1 := by decide +kernel

/-- M16. -/
theorem test_raw : let t := after (exec (.raw 3 0 (operands 1 1 0 1)) (mapState 0 []))
    t.readLoc (.value 1) = 0x4120 ∧ t.readLoc (.slotInfo 1) = 5 := by decide +kernel

/-- M15's second definition. -/
theorem test_f32Abcd : (after (exec (.f32Abcd (operands 0 7 0 0x3F800000)) (mapState 0 []))).readLoc (.value 7) = 0x00FA4120 := by
  decide +kernel

/-- The bytes 00 FA 41 20 in the order b a d c (R173). -/
theorem test_f32Badc : (after (exec (.f32Badc (operands 0 7 0 0x3F800000)) (mapState 0 []))).readLoc (.value 7) = 0xFA002041 := by
  decide +kernel

/-- The bytes 00 FA 41 20 in the order c d a b (R174): 10.06…, scaled by 2. -/
theorem test_f32Cdab : (after (exec (.f32Cdab (operands 0 7 0 0x40000000)) (mapState 0 []))).readLoc (.value 7) = 0x41A000FA := by
  decide +kernel

/-- The bytes 00 FA 41 20 in the order d c b a (R175). -/
theorem test_f32Dcba : (after (exec (.f32Dcba (operands 0 7 0 0x3F800000)) (mapState 0 []))).readLoc (.value 7) = 0x2041FA00 := by
  decide +kernel

/-- M12: INDEX + 1 = REG_COUNT skips; R176: a reserved order reads as ABCD. -/
theorem test_f32Reserved : (after (exec (.f32Reserved 5 (operands 0 7 0 0x3F800000)) (mapState 0 []))).readLoc (.value 7) = 0x00FA4120 ∧
    (after (exec (.f32Reserved 5 (operands 1 7 0 0x3F800000)) (mapState 0 []))).readLoc (.slotInfo 7) = 0 := by decide +kernel

/-! The arithmetic units. -/

/-- F1 to F5. -/
theorem test_f32recon : f32recon 0x1234 0x5678 0 = 0x12345678 ∧ f32recon 0x1234 0x5678 1 = 0x34127856 ∧
    f32recon 0x1234 0x5678 2 = 0x56781234 ∧ f32recon 0x1234 0x5678 3 = 0x78563412 ∧ f32recon 0x1234 0x5678 6 = 0x12345678 := by
  decide

/-- S5, S8, S12, S13, S15. -/
theorem test_fxscale : fxscale 1 0xFFFF 1 = 0xFFFFFFFF ∧ fxscale 7 0xFFFD 1 = 0xFFFFFFF5 ∧ fxscale 0xFFFF 0x8000 0 = 0x80008000 ∧
    fxscale 0xFFFF 0x8000 31 = 0xFFFFFFFF ∧ fxscale 0xFFFF 0x7FFF 15 = 0x0000FFFD := by decide

/-- Q2 to Q13 and Q30. -/
theorem test_fmul32_special : fmul32 0x7F800001 0x3F800000 = 0x7F800001 ∧ fmul32 0x3F800000 0x7F800001 = 0x7FC00001 ∧
    fmul32 0x40000000 0xFF800001 = 0xFFC00001 ∧ fmul32 0x7FC00000 0xFFC00001 = 0x7FC00000 ∧
    fmul32 0x7F800000 0x00000000 = 0x7FC00000 ∧ fmul32 0x80000000 0xFF800000 = 0x7FC00000 ∧
    fmul32 0x7F800000 0xC0000000 = 0xFF800000 ∧ fmul32 0x00000000 0xC0000000 = 0x80000000 ∧
    fmul32 0xFF800000 0xFF800000 = 0x7F800000 := by decide +kernel

/-- Q14 to Q29. -/
theorem test_fmul32_rounding : fmul32 0x7F7FFFFF 0x40000000 = 0x7F800000 ∧ fmul32 0x7F7FFFFF 0x3F800001 = 0x7F800000 ∧
    fmul32 0x7EFFFFFF 0x40000000 = 0x7F7FFFFF ∧ fmul32 0x00800001 0x3F000000 = 0x00400000 ∧
    fmul32 0x00000001 0x3F000000 = 0x00000000 ∧ fmul32 0x00000003 0x3F000000 = 0x00000002 ∧
    fmul32 0x00000001 0x3F400000 = 0x00000001 ∧ fmul32 0x00000001 0xBF000000 = 0x80000000 ∧
    fmul32 0x00000001 0x4B000000 = 0x00800000 ∧ fmul32 0x3F800001 0x3F800001 = 0x3F800002 ∧
    fmul32 0x3F7FFFFF 0x3F7FFFFF = 0x3F7FFFFE ∧ fmul32 0x3DCCCCCD 0x41200000 = 0x3F800000 := by decide +kernel

/-! The bus. -/

/-- B10 and R64: the address map, low offset bits ignored. -/
theorem test_locate : locate 0x0402 = .fb 0 ∧ locate 0x05FC = .fb 127 ∧ locate 0x001C = .reserved ∧ locate 0x03FC = .regs 127 ∧
    locate 0x0600 = .reserved ∧ locate 0x0BFC = .value 255 ∧ locate 0x15FC = .mtList 63 ∧ locate 0x27FC = .defHi 255 ∧
    locate 0x2800 = .reserved := by decide

/-- B10: FB packing. -/
theorem test_fb_word : let s := State.reset.writeLoc 0x44332211 (.fb 0)
    (List.range 4).map s.fbByte = [0x11, 0x22, 0x33, 0x44] ∧ s.readLoc (.fb 0) = 0x44332211 := by decide +kernel

/-- B7: W1C. -/
theorem test_status_write : let s := { State.reset with status := ⟨true, .ok, 5, true, false⟩ }
    (s.writeLoc 0x00010000 .status).statusWord = 0x00000502 ∧ (s.writeLoc 0x00000001 .status).statusWord = 0x00010502 := by
  decide +kernel

/-- The listing of P1 expands into the writes that 95_test_vectors.md prints beside it. -/
theorem test_listing : expandProgram [.unit 1 7, .func 0 1 3 0 2, .define 0 0 0 (.u16 6554 16)] =
    [Machine.wr 0x1004 0x00000107, Machine.wr 0x1404 0x00020000, Machine.wr 0x1400 0x00010301, Machine.wr 0x2004 0x0000199A,
      Machine.wr 0x2000 0x10000000] := by rfl

/-! Witnesses: for each statement with hypotheses, states and operands that meet them, one for each clause. -/

/-- The state after P1's DECMAP, its frame buffer aside: a valid frame and two slots. -/
def mapped : State :=
  { State.reset with
    frame := frame144
    mapping := ⟨⟨7, true, true, 2⟩, ((fill 256 0).set 0 0x19).set 1 0x4120,
      ((fill 256 ⟨false, .int⟩).set 0 ⟨true, .int⟩).set 1 ⟨true, .int⟩⟩
    status := ⟨true, .ok, 3, false, false⟩
    engine := ⟨.idle, 3, none⟩ }

theorem witness_ResetGivesTheTableValues :
    (busy 0x02 [.reset, .engine] mapped).sched = .reset :: [.engine] := by rfl

theorem mapped_inv : mapped.Inv where
  memory := by decide +kernel
  frame := ⟨by decide +kernel, by decide +kernel, by decide +kernel, by decide +kernel, by decide +kernel⟩
  mapping := ⟨fun k h => by
    simp only [mapped, Vector.getElem_set, Laws.getElem_fill]
    split_ifs <;> simp_all, by decide +kernel, by decide +kernel, by decide +kernel⟩
  mapped := by decide +kernel
  done := by decide +kernel
  fresh := by intro h; exact absurd h (by decide +kernel)
  cursor := by decide +kernel

/-- The empty schedule of an idle engine: the step keeps the state. -/
theorem mapped_step : step mapped = .next mapped := by
  have h1 : mapped.sched = [] := by decide +kernel
  have h2 : mapped.engine.state = .idle := by decide +kernel
  simp [step, h1, engineStep, h2]

theorem witness_EveryStepKeepsTheInvariant : ∃ s t : State, s.Inv ∧ step s = .next t := ⟨mapped, mapped, mapped_inv, mapped_step⟩

theorem witness_StepRunsTheDecodedCommand :
    decode .command (commandWord (busy 0x03 [.engine] mapped).engine.op :: [7]) = .ok (.decmap, [7]) ∧
    (busy 0x03 [.engine] mapped).sched = .engine :: [] ∧ (busy 0x03 [.engine] mapped).engine.state = .busy ∧
    (busy 0x03 [] mapped).sched = [] ∧ (busy 0x03 [] mapped).engine.state = .busy ∧
    ({ mapped with sched := [.engine] } : State).engine.state = .idle ∧ mapped.sched = [] := by decide +kernel

theorem witness_MapLoopRunsTheDecodedDefinition :
    let s : State := { mapState 0 [(.defLo 255, 0x00090A00)] with engine := ⟨.busy, 2, some 255⟩ }
    s.engine.dcur = some 255 ∧ (255 : BitVec 9).toNat + 1 ≤ 256 ∧
      decodeDefinition s.definitionEntry.lo s.definitionEntry.hi = .f32Cdab (operands 0 10 0 s.definitionEntry.hi) := by
  refine ⟨rfl, by decide, by rfl⟩

theorem witness_AcceptedCommandCompletes : (busy 0x02 [] mapped).engine.state = .busy ∧ .reset ∉ (busy 0x02 [] mapped).sched ∧
    (busy 0xFF [.read 0, .write 5 0, .engine] mapped).engine.state = .busy ∧
    .reset ∉ (busy 0xFF [.read 0, .write 5 0, .engine] mapped).sched := by decide +kernel

theorem witness_HostAccessKeepsARunningCommand : ∃ (s t : State) (turn : Turn) (rest : List Turn), s.engine.state = .busy ∧
    s.sched = turn :: rest ∧ turn ≠ .engine ∧ turn ≠ .reset ∧ step s = .next t :=
  ⟨busy 0x02 [.write Config.base 1] mapped, _, .write Config.base 1, [], rfl, rfl, by simp, by simp, rfl⟩

/-- The step of a host write of the window's word at an offset. -/
theorem step_write (s : State) (off : Nat) (v : Word) (rest : List Turn) (h : off < 0x4000) :
    step { s with sched := .write (Config.base + off) v :: rest } = .next (State.writeLoc v (locate off) { s with sched := rest }) := by
  simp [step, State.busWrite, h]

theorem witness_OnlyCommandWritesStartTheEngine :
    (∃ s t : State, step s = .next t ∧ s.engine.state = .idle ∧ t.engine.state = .busy) ∧
    ∃ s t : State, step s = .next t ∧ s.engine.state = .busy ∧ t.engine.state = .idle :=
  ⟨⟨_, _, step_write .reset 0 7 [] (by decide), rfl, rfl⟩, ⟨busy 0x00 [] .reset, _, rfl, rfl, rfl⟩⟩

theorem witness_StickyFlagsStayUntilWrittenOne :
    (∃ s t : State, step s = .next t ∧ (∀ rest, s.sched ≠ .reset :: rest) ∧ s.status.overrun = true ∧ t.status.overrun = false) ∧
    ∃ s t : State, step s = .next t ∧ (∀ rest, s.sched ≠ .reset :: rest) ∧ s.status.busyWr = true ∧ t.status.busyWr = false :=
  ⟨⟨_, _, step_write { State.reset with status := ⟨true, .ok, 5, true, true⟩ } 4 0x00010000 [] (by decide), by simp, rfl, rfl⟩,
    ⟨_, _, step_write { State.reset with status := ⟨true, .ok, 5, true, true⟩ } 4 0x00020000 [] (by decide), by simp, rfl, rfl⟩⟩

/-- One instruction of each kind that the statement's clauses name. -/
theorem witness_CommandsWriteOnlyTheirWriteSet :
    (∃ t, exec .nop mapped = .next t) ∧ (∃ t, exec .decode mapped = .next t) ∧ (∃ t, exec .map mapped = .next t) ∧
      (∃ t, exec .f32 mapped = .next t) ∧ ∃ t, exec (.raw 3 0 (operands 0 0 0 0)) mapped = .next t :=
  ⟨⟨_, rfl⟩, ⟨_, rfl⟩, ⟨_, rfl⟩, ⟨_, rfl⟩, ⟨_, rfl⟩⟩

theorem witness_EarlierErrorsDoNotAlterACommand :
    Instr.format .decmap = .command ∧ Instr.format (.reserved80 0xFF) = .command := ⟨rfl, rfl⟩

theorem witness_DecodeOfEncodeIsTheInstruction : (Instr.reserved80 0xFF).wf = true ∧
    (Instr.f32Reserved 4 ⟨255, 255, 31, 7, 7, 0xFFFFFFFF⟩).wf = true ∧ (Instr.raw 2 7 (operands 0 0 0 0)).wf = true := by decide

theorem witness_NopOnlyCompletes : (busy 0x00 [] mapped).engine.op = 0x00#8 := rfl

theorem witness_ReservedOpcodesCompleteWithBadCmd : 7 ≤ (busy 0x07 [] .reset).engine.op.toNat ∧
    7 ≤ (busy 0xFF [] .reset).engine.op.toNat := by decide

theorem witness_FmulCommandWritesTheProduct : isInf 0xFF800000 = true ∧ isZero 0x80000000 = true := by decide

theorem witness_DecodeErrorsClearTheFrame :
    (framed [1, 3, 0, 0xAA] .reset).inputs.flen.toNat = 4 ∧
    (let s := framed [1, 3, 3, 0, 0] .reset;
      5 ≤ s.inputs.flen.toNat ∧ (s.fbByte 2).toNat % 2 = 1) ∧
    (let s := framed [1, 3, 4, 0, 1, 2] .reset;
      5 ≤ s.inputs.flen.toNat ∧ (s.fbByte 2).toNat % 2 = 0 ∧ s.inputs.flen.toNat < 3 + (s.fbByte 2).toNat) := by decide +kernel

/-- FLEN = 5 with N = 0, and FLEN = 3 + N. -/
theorem witness_DecodeExtractsTheFrame :
    (let s := framed [0x11, 4, 0, 0x23, 5] .reset;
      5 ≤ s.inputs.flen.toNat ∧ (s.fbByte 2).toNat % 2 = 0 ∧ 3 + (s.fbByte 2).toNat ≤ s.inputs.flen.toNat) ∧
    (let s := framed [1, 3, 4, 0, 1, 2, 3] .reset;
      5 ≤ s.inputs.flen.toNat ∧ (s.fbByte 2).toNat % 2 = 0 ∧ 3 + (s.fbByte 2).toNat = s.inputs.flen.toNat) := by decide +kernel

/-- FB holding a list of bytes from an address on. -/
def memoryFrom (n : Nat) : List Byte → Memory
  | [] => []
  | b :: rest => (n, b) :: memoryFrom (n + 1) rest

theorem find_memoryFrom (l : List Byte) (n a : Nat) : (memoryFrom n l).find (n + a) = l[a]? := by
  induction l generalizing n a with
  | nil => rfl
  | cons b rest ih =>
    cases a with
    | zero => simp [memoryFrom, Memory.find]
    | succ a =>
      have := ih (n + 1) a
      rw [show n + 1 + a = n + (a + 1) by omega] at this
      simp [memoryFrom, Memory.find, this]

/-- Every list of up to 127 registers. -/
theorem witness_DecodeReturnsTheEncodedRegisters (rs : List Half) (h : rs.length ≤ 127) :
    ∃ s : State, s.inputs.flen.toNat = 2 * rs.length + 5 ∧
      ∀ a b, (frameOf 0xF7 3 rs 0xA9 0x54)[a]? = some b → s.fbByte a = b := by
  refine ⟨{ State.reset with
    inputs := ⟨BitVec.ofNat 9 (2 * rs.length + 5), memoryFrom 0 (frameOf 0xF7 3 rs 0xA9 0x54), 0, 0, 0⟩ }, ?_, fun a b hb => ?_⟩
  · rw [BitVec.toNat_ofNat]
    omega
  · have := find_memoryFrom (frameOf 0xF7 3 rs 0xA9 0x54) 0 a
    rw [Nat.zero_add] at this
    rw [State.fbByte, this, hb]
    rfl

/-- Two states that differ beyond the slice and in the earlier frame. -/
theorem witness_DecodeReadsOnlyItsSlice : ∃ s t s' t' : State, s ≠ t ∧ s.inputs.flen = t.inputs.flen ∧
    (5 ≤ s.inputs.flen.toNat → ∀ a, s.decodeReads a → s.fbByte a = t.fbByte a) ∧
    exec .decode s = .next s' ∧ exec .decode t = .next t' := by
  refine ⟨framed [1, 3, 0, 7, 8] .reset, poke [(.fb 100, 9)] (framed [1, 3, 0, 7, 8] .reset), _, _, ?_, by decide +kernel, ?_,
    rfl, rfl⟩
  · intro h
    have := congrArg (fun s : State => s.inputs.fb.length) h
    revert this
    decide +kernel
  · rintro - a ⟨ha, -⟩
    have h5 : (framed [1, 3, 0, 7, 8] .reset).inputs.flen.toNat = 5 := by decide +kernel
    rw [h5] at ha
    have : ∀ a < 5, (framed [1, 3, 0, 7, 8] .reset).fbByte a = (poke [(.fb 100, 9)] (framed [1, 3, 0, 7, 8] .reset)).fbByte a := by
      decide +kernel
    exact this a ha

theorem witness_MapWithoutAFrameRaisesNoFrame : State.reset.frame.frame0.valid = false := rfl

/-- M10's configuration. -/
theorem witness_MapOfAnUnknownUnitIsEmpty : let s := mapState 0 [(.ut 1, 0)]
    s.frame.frame0.valid = true ∧ s.tables.ut[s.frame.frame0.unitId.toNat].valid = false := by decide +kernel

/-- M4's configuration: the only entry is for another function. -/
theorem witness_MapOfAnUnknownFunctionNamesTheDevice : let s := mapState 0 [(.mtKey 0, 0x10401)]
    s.frame.frame0.valid = true ∧ s.tables.ut[s.frame.frame0.unitId.toNat].valid = true ∧ s.functionMiss := by
  unfold State.functionMiss
  decide +kernel

/-- M7's list (255, 2) in the last entry, and M5's empty list. -/
theorem witness_MapOfAListPastTheEndRaisesCfgErr :
    (let s := mapState 0 [(.mtKey 0, 0), (.mtKey 63, 0x10301), (.mtList 63, 0x000200FF)];
      s.frame.frame0.valid = true ∧ s.tables.ut[s.frame.frame0.unitId.toNat].valid = true ∧ s.leastHit 63 ∧
        256 < s.tables.mt[(63 : Fin 64)].base.toNat + s.tables.mt[(63 : Fin 64)].count.toNat) ∧
    (let s := mapState 0x000000FF [];
      s.frame.frame0.valid = true ∧ s.tables.ut[s.frame.frame0.unitId.toNat].valid = true ∧ s.leastHit 0 ∧
        s.tables.mt[(0 : Fin 64)].count = 0) := by
  unfold State.leastHit
  decide +kernel

/-- M6's list (255, 1), with a second matching entry. -/
theorem witness_MapLeavesTheLastStoreOfEachSlot : let s := mapState 0x000100FF [(.mtKey 5, 0x10301)]
    s.frame.frame0.valid = true ∧ s.tables.ut[s.frame.frame0.unitId.toNat].valid = true ∧ s.leastHit 0 ∧
      s.tables.mt[(0 : Fin 64)].base.toNat + s.tables.mt[(0 : Fin 64)].count.toNat = 256 := by
  unfold State.leastHit
  decide +kernel

theorem witness_NvalidCountsDistinctSlots : ∃ t, exec .map (mapState 0x000100FF [(.mtKey 5, 0x10301)]) = .next t := ⟨_, rfl⟩

theorem witness_MapReadsOnlyFrameAndConfiguration : ∃ s t s' t' : State, s ≠ t ∧ s.frame = t.frame ∧ s.tables = t.tables ∧
    exec .map s = .next s' ∧ exec .map t = .next t' :=
  ⟨mapState 0 [], { mapState 0 [] with result := 1 }, _, _,
    fun h => absurd (congrArg (fun s : State => s.result) h) (by decide +kernel), rfl, rfl, rfl, rfl⟩

/-- D4's frame fails, R144's does not. -/
theorem witness_DecmapIsDecodeThenMap :
    (after (exec .decode (framed [1, 3, 3, 0, 0] .reset))).status.err ≠ .ok ∧
    (after (exec .decode (framed [1, 3, 4, 0x00, 0xFA, 0x41, 0x20, 0xEB, 0x8A] .reset))).status.err = .ok := by decide +kernel

/-- INDEX 1 and 2 at REG_COUNT 2. -/
theorem witness_IntegerDefinitionsStoreTheScaledRegister :
    (operands 1 0 0 0).index.toNat < 128 ∧ (operands 1 0 0 0).index.toNat < mapped.frame.frame0.regCount.toNat ∧
      mapped.frame.frame0.regCount.toNat ≤ (operands 2 0 0 0).index.toNat := by decide +kernel

/-- INDEX 0 and 1 at REG_COUNT 2, and each bound of the reserved orders. -/
theorem witness_FloatDefinitionsStoreTheScaledFloat :
    (operands 0 0 0 0).index.toNat + 1 < 128 ∧ (operands 0 0 0 0).index.toNat + 1 < mapped.frame.frame0.regCount.toNat ∧
      (Instr.f32Reserved 4 (operands 0 0 0 0)).wf = true ∧ (Instr.f32Reserved 7 (operands 0 0 0 0)).wf = true ∧
      mapped.frame.frame0.regCount.toNat ≤ (operands 1 0 0 0).index.toNat + 1 := by decide +kernel

theorem witness_OutOfRangeDefinitionsAreSkipped :
    decodeDefinition 0x00000002 7 = .u16 0 (operands 2 0 0 7) ∧
      mapped.frame.frame0.regCount.toNat ≤ ((0x00000002 : Word).extractLsb' 0 8).toNat ∧
      State.reset.frame.frame0.regCount = 0 := ⟨rfl, by decide +kernel, rfl⟩

theorem witness_ReconstructionFollowsTheWordOrder : (4 : BitVec 3).getLsbD 2 = true ∧ (7 : BitVec 3).getLsbD 2 = true := by decide

/-- One pair for each clause: a NaN x, a NaN y, ∞ · 0 both ways, ∞ by a finite value both ways, 0 by a finite one both ways. -/
theorem witness_MultiplierSpecialCases :
    ((0x40000000 : Word) ≠ 0x3F800000 ∧ isNaN 0x7F800001 = true) ∧ (isNaN 0x7F800000 = false ∧ isNaN 0xFFFFFFFF = true) ∧
      (isInf 0x7F800000 = true ∧ isZero 0x80000000 = true) ∧
      (isInf 0xFF800000 = true ∧ isFiniteNonzero 0x00000001 = true) ∧
      (isZero 0x00000000 = true ∧ isFiniteNonzero 0x7F7FFFFF = true) := by decide

theorem witness_InfinityByInfinityIsInfinity : isInf 0x7F800000 = true ∧ isInf 0xFF800000 = true := by decide

/-- The ends of the range; the first candidate meets the second clause as well. -/
theorem witness_MultiplierRoundsToTheNearestEven : isFiniteNonzero 0x00000001 = true ∧ isFiniteNonzero 0xFF7FFFFF = true ∧
    isNaN 0x7F800000 = false := by decide

/-- Q20, a tie between 0 and the least subnormal. -/
theorem witness_tie : let p := f32Value 0x00000001 * f32Value 0x3F000000
    |f32Value 0 * 2 ^ 149 - p| = |f32Value 1 * 2 ^ 149 - p| ∧ f32Value 1 ≠ f32Value 0 := by decide +kernel

/-- Q15 is above the bound, Q16 below it. -/
theorem witness_MultiplierOverflowsAtTheBound :
    (2 ^ 25 - 1) * 2 ^ 401 ≤ |f32Value 0x7F7FFFFF * f32Value 0x3F800001| ∧
      |f32Value 0x7EFFFFFF * f32Value 0x40000000| < (2 ^ 25 - 1) * 2 ^ 401 := by decide +kernel

theorem witness_OffsetsIgnoreTheirLowBits : (0x3FFF : Nat) < 0x4000 ∧ Config.base + 0x4000 ≤ Config.base + 0x4000 ∧
    (0 < Config.base → Config.base - 1 < Config.base) := ⟨by decide, le_rfl, fun h => by omega⟩

theorem witness_ReadsHaveNoSideEffect :
    (busy 0x02 [.read (Config.base + 0x3FFF)] mapped).sched = .read (Config.base + 0x3FFF) :: [] := rfl

theorem witness_ReservedAndReadOnlyWordsIgnoreWrites : Loc.slotInfo 255 ∈ [Loc.reserved, .slotInfo 255] := by decide

theorem witness_CommandWriteIsAcceptedOrDropped :
    let s : State := { State.reset with sched := [.write Config.base 0xFFFFFF06] }
    let t := busy 0x02 [.write Config.base 0] mapped
    s.sched = .write Config.base 0xFFFFFF06 :: [] ∧ s.engine.state = .idle ∧ t.sched = .write Config.base 0 :: [] ∧
      t.engine.state = .busy := ⟨rfl, rfl, rfl, rfl⟩

/-- FLEN and the last word of DM. -/
theorem witness_ProtectedWritesAreDroppedWhileBusy : (locate 0x0008).isProtected = true ∧ (locate 0x27FF).isProtected = true ∧
    (busy 0x02 [.write (Config.base + 0x27FF) 0] mapped).sched = .write (Config.base + 0x27FF) 0 :: [] ∧
    (busy 0x02 [.write (Config.base + 0x27FF) 0] mapped).engine.state = .busy := ⟨by decide, by decide, rfl, rfl⟩

theorem witness_IdleWritesAreReadBack : State.reset.engine.state = .idle ∧ (Loc.mtList 63).isProtected = true ∧
    Loc.mtKey 63 ≠ Loc.mtList 63 := ⟨rfl, rfl, by decide⟩

/-- A write to FB word 64 (bytes 256 to 259), between two written words: the bytes just before it, just after it and at both ends
of FB are outside it, and keep what stands there. -/
theorem witness_FrameBufferWordsAreLittleEndian :
    let s := poke [(.fb 0, 0x04030201), (.fb 63, 0x14131211), (.fb 65, 0x24232221), (.fb 127, 0x34333231)] .reset
    let t := s.writeLoc 0xDDCCBBAA (.fb 64)
    s.engine.state = .idle ∧ (∀ a ∈ [0, 255, 260, 511], a / 4 ≠ (64 : Fin 128).val) ∧
      [0, 255, 260, 511].map t.fbByte = [0x01, 0x14, 0x21, 0x34] ∧ [0, 255, 260, 511].map s.fbByte = [0x01, 0x14, 0x21, 0x34] ∧
      [256, 257, 258, 259].map t.fbByte = [0xAA, 0xBB, 0xCC, 0xDD] := by decide +kernel

/-- Both ends of the reserved word orders, rsv4 and rsv7. -/
theorem witness_DefinitionListingWritesTheEncoding : ∀ e : DefOperands,
    (Instr.f32Reserved 0b100 e).wf = true ∧ (Instr.f32Reserved 0b111 e).wf = true := fun _ => ⟨rfl, rfl⟩

/-- The ends of the window and of each reserved gap, and a location of each kind. -/
theorem witness_AddressMapIsTheTable : (0x3FFF : Nat) < 0x4000 ∧
    [0x001C, 0x001F, 0x002C, 0x01FF, 0x0600, 0x07FF, 0x1600, 0x1FFF, 0x2800, 0x3FFF].map locate = List.replicate 10 .reserved ∧
    (Loc.defHi 255).isProtected = true ∧ (Loc.slotInfo 255).isProtected = false ∧ Loc.slotInfo 255 ≠ .cmd ∧
    Loc.slotInfo 255 ≠ .status := by decide

/-- A state for each error, BAD_CMD (the greatest code) among them. -/
theorem witness_StatusFieldsStandAtTheirBits : ∀ e : ErrCode, ∃ s : State, s.status.err = e :=
  fun e => ⟨{ mapped with status := { mapped.status with err := e } }, rfl⟩

/-- A slot of each kind. -/
theorem witness_ReadWordsHoldTheirFields : ∀ tag : Tag, ∃ s : State, s.mapping.slotInfo[(255 : Fin 256)].tag = tag := by
  intro tag
  exact ⟨{ mapped with mapping := { mapped.mapping with slotInfo := mapped.mapping.slotInfo.set 255 ⟨true, tag⟩ } }, by simp⟩

end Sys2Proof.Tests
end

section
/-! SUPPORT. The engine's turn: which step gives it, and what it does in either engine state. -/

namespace Sys2Proof.Proofs

open Sys2Proof.Machine

/-- The step of an engine turn (R17, R123). -/
theorem step_engine {s : State} {rest : List Turn} (h : s.sched = .engine :: rest) :
    step s = engineStep { s with sched := rest } := by
  simp only [step, h]

/-- The step with no turn left is an engine turn (log 2). -/
theorem step_nil {s : State} (h : s.sched = []) : step s = engineStep s := by
  simp only [step, h]

/-- While BUSY the engine's turn runs the latched command (R113). -/
theorem engineStep_busy {s : State} (h : s.engine.state = .busy) : engineStep s = exec s.command s := by
  simp only [engineStep, h]

/-- While IDLE the engine's turn keeps the whole state (R224). -/
theorem engineStep_idle {s : State} (h : s.engine.state = .idle) : engineStep s = .next s := by
  simp only [engineStep, h]

/-- The latched command is what the decoder reads in the latched opcode's word, whatever words follow (R45, R88). -/
theorem command_eq_of_decode {s : State} {i : Instr} {ws : List Word}
    (h : decode .command (commandWord s.engine.op :: ws) = .ok (i, ws)) : s.command = i :=
  congrArg Prod.fst (Except.ok.inj h)

/-- Settles O5: an engine turn, explicit or of the empty schedule, is `engineStep`, and the command that `engineStep` runs
is the decoded one. -/
theorem stepRunsTheDecodedCommand : Obligations.StepRunsTheDecodedCommand := by
  intro s i rest ws hdecode
  obtain rfl := command_eq_of_decode hdecode
  refine ⟨fun hsched hbusy => ?_, fun hsched hbusy => ?_, fun hsched hidle => ?_, fun hsched hidle => ?_⟩
  · exact (step_engine hsched).trans (engineStep_busy hbusy)
  · exact (step_nil hsched).trans (engineStep_busy hbusy)
  · exact (step_engine hsched).trans (engineStep_idle hidle)
  · exact (step_nil hsched).trans (engineStep_idle hidle)

end Sys2Proof.Proofs
end

section
/-! SUPPORT. The words that the host reads: every field at its bits, and 0 in every bit that is no field (R48). -/

namespace Sys2Proof.Proofs

open Sys2Proof.Machine Sys2Proof.Laws

/-- Every bit of a word outside the mask is 0. -/
def ZeroOutside {n : Nat} (mask w : BitVec n) : Prop := w &&& ~~~mask = 0#n

namespace ZeroOutside

theorem reserved (n : Nat) : ZeroOutside 0#n 0#n := BitVec.zero_and

theorem field {n : Nat} (w : BitVec n) : ZeroOutside (BitVec.allOnes n) w := by
  simp [ZeroOutside]

theorem wholeWord (w : Word) : ZeroOutside 0xFFFFFFFF w := .field w

/-- The words of 10_state.md are put together by `++`, and so are their masks. -/
theorem append {n m : Nat} {a x : BitVec n} {b y : BitVec m} (hx : ZeroOutside a x) (hy : ZeroOutside b y) :
    ZeroOutside (a ++ b) (x ++ y) := by
  unfold ZeroOutside at *
  rw [BitVec.not_append, BitVec.and_append, hx, hy, BitVec.zero_append_zero]

/-- A field below bits that are put together already. -/
theorem appendField {n m : Nat} {a x : BitVec n} {y : BitVec m} (h : ZeroOutside a x) :
    ZeroOutside (a ++ BitVec.allOnes m) (x ++ y) := h.append (field y)

/-- A mask may be given as the layout of its word. -/
theorem of_layout {n : Nat} {layout mask w : BitVec n} (h : ZeroOutside layout w) (hmask : layout = mask) :
    ZeroOutside mask w := hmask ▸ h

end ZeroOutside

/-- A register narrower than the bus is read with 0 above it. -/
theorem setWidth_eq_zero_append {n : Nat} (m : Nat) (x : BitVec n) : x.setWidth (m + n) = 0#m ++ x := by
  simp [BitVec.setWidth_eq_append]

/-- The layout of every word of the window, its least significant field outermost (R21 to R43). -/
theorem readLoc_zeroOutside_fieldBits (s : State) (l : Loc) : ZeroOutside l.fieldBits (s.readLoc l) := by
  cases l with
  | cmd | reserved => exact .reserved 32
  | arg0 | arg1 | arg2 | result | frame0 | fb | value | defLo | defHi => exact .wholeWord _
  | status =>
    exact .of_layout (.appendField (.appendField (.append (.appendField (.appendField (.appendField (.appendField
      (.reserved 14))))) (.reserved 2)))) rfl
  | flen =>
    rw [State.readLoc, setWidth_eq_zero_append 23]
    exact .of_layout (.appendField (.reserved 23)) rfl
  | regs i =>
    rw [State.readLoc, setWidth_eq_zero_append 16]
    exact .of_layout (.appendField (.reserved 16)) rfl
  | frame1 => exact .of_layout (.appendField (.appendField (.appendField (.reserved 14)))) rfl
  | mapInfo =>
    exact .of_layout (.appendField (.appendField (.appendField (.append (.appendField (.reserved 7)) (.reserved 6))))) rfl
  | slotInfo k => exact .of_layout (.appendField (.appendField (.reserved 29))) rfl
  | ut u => exact .of_layout (.appendField (.appendField (.reserved 23))) rfl
  | mtKey k => exact .of_layout (.appendField (.appendField (.appendField (.reserved 15)))) rfl
  | mtList k => exact .of_layout (.appendField (.append (.appendField (.reserved 7)) (.reserved 8))) rfl

/-- TAG code 3 is never produced (R103). -/
theorem tag_code_ne_three (t : Tag) : t.code ≠ 3#2 := by
  cases t <;> decide

/-- Settles O56: each word is put together from its fields and 0 bits, and a slot's TAG bits are the code of a tag. -/
theorem bitsThatAreNoFieldReadZero : Obligations.BitsThatAreNoFieldReadZero := by
  intro s l
  refine ⟨readLoc_zeroOutside_fieldBits s l, fun k => ?_⟩
  rw [State.readLoc, slotInfo_word_tag]
  exact tag_code_ne_three _

/-- Settles O60: a whole-word read is the register itself, a narrow register has 0 above it, and the other words are read
back at the bits of their fields by the laws of each word. -/
theorem readWordsHoldTheirFields : Obligations.ReadWordsHoldTheirFields := by
  intro s i k j
  refine ⟨⟨rfl, rfl, rfl, rfl, setWidth_eq_zero_append 23 _, setWidth_eq_zero_append 16 _, rfl, rfl, rfl⟩,
    ?frame0, ?frame1, ?mapInfo, ?slotInfo, ?ut, ?mtKey, ?mtList⟩
  case slotInfo =>
    simp only [State.readLoc, slotInfo_word_tag]
    exact ⟨slotInfo_word_valid _, congrArg Tag.code, congrArg Tag.code, congrArg Tag.code⟩
  all_goals simp [State.readLoc]

end Sys2Proof.Proofs
end

section
/-! SUPPORT. MAP's loop as the run of the instructions that DM decodes to (R146, R152). -/

namespace Sys2Proof.Proofs

open Sys2Proof.Machine Sys2Proof.Laws

/-- Every definition moves the cursor by 1 (R31). -/
theorem runDefinition_definition_dcur (s : State) :
    (runDefinition s.definition s).engine.dcur = s.engine.dcur.map (· + 1) := by
  rw [State.definition, runDefinition_decode, afterStore_dcur]

/-- The definition at a cursor inside DM is what the decoder reads in the entry's two words. -/
theorem definition_eq_of_decode {s : State} {i : Instr} {c : BitVec 9} (h : c.toNat < 256) (hc : s.engine.dcur = some c)
    (hdecode : decode .definition [s.tables.dm[c.toNat].lo, s.tables.dm[c.toNat].hi] = .ok (i, [])) : s.definition = i := by
  have hentry : s.definitionEntry = s.tables.dm[c.toNat] := by
    rw [definitionEntry_some s c hc, Vector.getElem?_eq_getElem h, Option.getD_some]
  rw [State.definition, hentry]
  exact congrArg Prod.fst (Except.ok.inj hdecode)

/-- The definition at the cursor is an operation of a DM entry (R108). -/
theorem definition_format (s : State) : s.definition.format = .definition := decodeDefinition_format _ _

/-- Settles O6: one round of the loop is `exec` of the definition at the cursor, and n rounds move the cursor by n, which
does not wrap up to the end of DM. -/
theorem mapLoopRunsTheDecodedDefinition : Obligations.MapLoopRunsTheDecodedDefinition := by
  refine ⟨fun dev e s => ⟨e.base.setWidth 9, rfl, ?_⟩, fun s => rfl, fun n s i c h hc hdecode => ?_, fun n s c hc hn => ?_⟩
  · exact BitVec.toNat_setWidth_of_le (by decide)
  · obtain rfl := definition_eq_of_decode h hc hdecode
    refine ⟨_, exec_definition _ s (definition_format s), ?_, rfl⟩
    rw [runDefinition_definition_dcur, hc, Option.map_some]
  · refine ⟨c + BitVec.ofNat 9 n, by rw [runDefinitions_dcur, hc, Option.map_some], ?_⟩
    rw [BitVec.toNat_add, BitVec.toNat_ofNat]
    omega

end Sys2Proof.Proofs
end

section
/-! SUPPORT. Every step keeps the invariant: what a completion commits is consistent, and no host access touches it. -/

namespace Sys2Proof.Proofs

open Sys2Proof.Machine Sys2Proof.Laws

/-! The map states that DECODE and MAP leave. -/

/-- An invalid slot holds 0 (R158). -/
def InvalidSlotsZero (m : Mapping) : Prop :=
  ∀ k (h : k < 256), m.slotInfo[k].valid = false → m.value[k] = 0 ∧ m.slotInfo[k].tag = .int

theorem invalidSlotsZero_storeInto {m : Mapping} (h : InvalidSlotsZero m) (x : Byte × Word × Tag) :
    InvalidSlotsZero (storeInto m x) := by
  intro k hk hv
  by_cases hkx : x.1.toNat = k
  · simp [storeInto, hkx] at hv
  · simp only [storeInto, Vector.getElem_set_ne _ _ hkx] at hv ⊢
    exact h k hk hv

/-- No slot of a cleared map state is valid. -/
theorem countValid_cleared : countValid (fill 256 ⟨false, .int⟩) = 0 := by
  change BitVec.ofNat 9 ((List.replicate 256 _).countP _) = 0
  rw [List.countP_replicate, if_neg Bool.false_ne_true]
  rfl

/-- A map state with no valid slot is consistent without a function hit, whether or not the unit was hit (R147, R150). -/
theorem consistent_clearedSlots (dev : Byte) (devValid : Bool) (h : devValid = false → dev = 0) :
    ({ Mapping.cleared with info := ⟨dev, devValid, false, 0⟩ } : Mapping).Consistent where
  slots := by simp
  count := countValid_cleared.symm
  function _ := rfl
  device hv := ⟨rfl, h hv⟩

theorem consistent_cleared_mapping : Mapping.cleared.Consistent := consistent_clearedSlots 0 false fun _ => rfl

/-- The stores of a list keep an invalid slot at 0. -/
theorem invalidSlotsZero_foldl {m : Mapping} (h : InvalidSlotsZero m) (xs : List (Byte × Word × Tag)) :
    InvalidSlotsZero (xs.foldl storeInto m) :=
  List.foldlRecOn xs storeInto h fun _ hm x _ => invalidSlotsZero_storeInto hm x

/-- The map state after the loop of MAP, NVALID counted (R158, R159). -/
theorem consistent_finishList (dev : Byte) (e : FuncEntry) (s : State) (es : List DefEntry) :
    (afterEntries (s.startList dev e) es).finishList.mapping.Consistent := by
  have hinfo : (afterEntries (s.startList dev e) es).mapping.info = ⟨dev, true, true, 0⟩ := (foldl_storeInto _ _ 0).1
  exact
    { slots := invalidSlotsZero_foldl (by simp [InvalidSlotsZero]) _
      count := rfl
      function := by simp [hinfo]
      device := by simp [hinfo] }

/-! What a command commits. -/

/-- The part of the invariant that speaks of what commands write. -/
structure OutputsConsistent (s : State) : Prop where
  frame : s.frame.Consistent
  mapping : s.mapping.Consistent
  mapped : s.mapping.info.devValid = true → s.frame.frame0.valid = true

theorem outputsConsistent_of_cleared {s : State} (hf : s.frame.Consistent) (hm : s.mapping = .cleared) : OutputsConsistent s where
  frame := hf
  mapping := hm ▸ consistent_cleared_mapping
  mapped := by simp [hm]

theorem decodeBody_outputs (s : State) : OutputsConsistent (decodeBody s).1 := by
  refine outputsConsistent_of_cleared (decodeBody_consistent s) ?_
  obtain ⟨f, h⟩ := decodeBody_frame s
  rw [h]

/-- The five ways MAP ends, with the conditions that select each (R146, R150, R151). -/
theorem mapBody_cases (s : State) :
    let f := s.frame.frame0
    let unit := s.tables.ut[f.unitId.toNat]
    (f.valid = false ∧ mapBody s = raise .noFrame s.clearMap) ∨
    (f.valid = true ∧ unit.valid = false ∧ mapBody s = succeed s.clearMap) ∨
    (f.valid = true ∧ unit.valid = true ∧ s.lookupFunction f.unitId f.func = none ∧
      mapBody s = succeed { s with mapping := .ofDevice unit.deviceId }) ∨
    (f.valid = true ∧ unit.valid = true ∧ ∃ e, s.lookupFunction f.unitId f.func = some e ∧
      256 < e.base.toNat + e.count.toNat ∧ mapBody s = raise .cfgErr s.clearMap) ∨
    (f.valid = true ∧ unit.valid = true ∧ ∃ e, s.lookupFunction f.unitId f.func = some e ∧
      e.base.toNat + e.count.toNat ≤ 256 ∧
      mapBody s = succeed (afterEntries (s.startList unit.deviceId e) (s.listEntries e.base.toNat e.count.toNat)).finishList) := by
  unfold mapBody
  simp only
  by_cases hvalid : s.frame.frame0.valid
  · by_cases hunit : s.tables.ut[s.frame.frame0.unitId.toNat].valid
    · rw [if_pos hvalid, if_pos hunit]
      cases s.lookupFunction s.frame.frame0.unitId s.frame.frame0.func with
      | none => exact .inr (.inr (.inl ⟨hvalid, hunit, rfl, rfl⟩))
      | some e =>
        by_cases hlist : e.base.toNat + e.count.toNat ≤ 256
        · exact .inr (.inr (.inr (.inr ⟨hvalid, hunit, e, rfl, hlist, mapList_eq _ e s hlist⟩)))
        · have hout := Nat.lt_of_not_le hlist
          exact .inr (.inr (.inr (.inl ⟨hvalid, hunit, e, rfl, hout, if_pos hout⟩)))
    · exact .inr (.inl ⟨hvalid, Bool.eq_false_of_not_eq_true hunit, by rw [if_pos hvalid, if_neg hunit]⟩)
  · exact .inl ⟨Bool.eq_false_of_not_eq_true hvalid, if_neg hvalid⟩

theorem mapBody_outputs {s : State} (h : s.frame.Consistent) : OutputsConsistent (mapBody s).1 := by
  obtain ⟨-, hm⟩ | ⟨-, -, hm⟩ | ⟨hvalid, -, -, hm⟩ | ⟨-, -, e, -, -, hm⟩ | ⟨hvalid, -, e, -, -, hm⟩ := mapBody_cases s <;> rw [hm]
  · exact outputsConsistent_of_cleared h rfl
  · exact outputsConsistent_of_cleared h rfl
  · exact ⟨h, consistent_clearedSlots _ true nofun, fun _ => hvalid⟩
  · exact outputsConsistent_of_cleared h rfl
  · exact ⟨h, consistent_finishList _ e s _, fun _ => hvalid⟩

theorem commandBody_outputs (i : Instr) {s : State} (h : OutputsConsistent s) : OutputsConsistent (commandBody i s).1 := by
  cases i with
  | decode => exact decodeBody_outputs s
  | map => exact mapBody_outputs h.frame
  | decmap =>
    rw [commandBody, decmapBody_eq]
    split
    · exact mapBody_outputs (decodeBody_consistent s)
    · exact decodeBody_outputs s
  | _ => exact ⟨h.frame, h.mapping, h.mapped⟩

/-! The invariant over each way a step ends. -/

/-- A completion sets DONE, returns to IDLE and ends the cursor (R113, R46). -/
theorem inv_complete {r : Result} (hfb : r.1.inputs.fb.wf = true) (h : OutputsConsistent r.1) : (complete r).Inv where
  memory := hfb
  frame := h.frame
  mapping := h.mapping
  mapped := h.mapped
  done _ := rfl
  fresh hdone := Bool.noConfusion hdone
  cursor := rfl

/-- The inputs, the configuration, the sticky flags and the model's own fields stand free under the invariant, the canonical
form of FB aside. -/
theorem inv_of_hostPart {s : State} (h : s.Inv) {inputs : Inputs} (hfb : inputs.fb.wf = true) (tables : Tables)
    (overrun busyWr : Bool) (sched : List Turn) (rdata : Word) :
    ({ s with inputs := inputs, tables := tables, status := { s.status with overrun := overrun, busyWr := busyWr },
              sched := sched, rdata := rdata } : State).Inv where
  memory := hfb
  frame := h.frame
  mapping := h.mapping
  mapped := h.mapped
  done := h.done
  fresh := h.fresh
  cursor := h.cursor

theorem inv_withSched {s : State} (h : s.Inv) (rest : List Turn) : ({ s with sched := rest } : State).Inv :=
  inv_of_hostPart h h.memory s.tables s.status.overrun s.status.busyWr rest s.rdata

theorem inv_complete_command {s : State} (h : s.Inv) (i : Instr) : (complete (commandBody i s)).Inv := by
  refine inv_complete ?_ (commandBody_outputs i ⟨h.frame, h.mapping, h.mapped⟩)
  obtain ⟨f, m, r, c, hbody⟩ := commandBody_frame i s
  rw [hbody]
  exact h.memory

/-- An accepted command takes DONE away and makes the engine BUSY (R112). -/
theorem inv_accept {s : State} (h : s.Inv) (op : Byte) : (s.accept op).Inv where
  memory := h.memory
  frame := h.frame
  mapping := h.mapping
  mapped := h.mapped
  done hdone := Bool.noConfusion hdone
  fresh _ hidle := EngState.noConfusion hidle
  cursor := h.cursor

theorem inv_store {s : State} (h : s.Inv) (v : Word) (l : Loc) : (s.store v l).Inv := by
  have hfb := store_wf s v l h.memory
  obtain ⟨inputs, tables, hstore⟩ := store_frame s v l
  rw [hstore] at hfb ⊢
  exact inv_of_hostPart h hfb tables s.status.overrun s.status.busyWr s.sched s.rdata

theorem inv_writeLoc {s : State} (h : s.Inv) (v : Word) (l : Loc) : (s.writeLoc v l).Inv := by
  have sticky (overrun busyWr : Bool) := inv_of_hostPart h h.memory s.tables overrun busyWr s.sched s.rdata
  obtain hw | ⟨-, -, hw⟩ | ⟨-, -, hw⟩ | ⟨-, -, hw⟩ | ⟨-, -, hw⟩ | ⟨-, hw⟩ := writeLoc_cases s v l <;> rw [hw]
  · exact h
  · exact inv_store h v l
  · exact inv_accept h _
  · exact sticky true s.status.busyWr
  · exact sticky s.status.overrun true
  · exact sticky _ _

theorem inv_busWrite {s : State} (h : s.Inv) (addr : Nat) (v : Word) : (s.busWrite addr v).Inv := by
  obtain hw | ⟨l, -, hw⟩ := busWrite_cases s addr v <;> rw [hw]
  · exact h
  · exact inv_writeLoc h v l

theorem inv_busRead {s : State} (h : s.Inv) (addr : Nat) : (s.busRead addr).Inv := by
  obtain ⟨r, hr⟩ := busRead_frame s addr
  rw [hr]
  exact inv_of_hostPart h h.memory s.tables s.status.overrun s.status.busyWr s.sched r

/-- The state right after any reset (R225). -/
theorem inv_resetAt (epoch : Nat) : (State.resetAt epoch).Inv where
  memory := rfl
  frame := consistent_cleared false
  mapping := consistent_cleared_mapping
  mapped hv := Bool.noConfusion hv
  done hdone := Bool.noConfusion hdone
  fresh _ _ := ⟨rfl, rfl, rfl, rfl, rfl⟩
  cursor := rfl

theorem inv_resetEvent (s : State) : s.resetEvent.Inv :=
  inv_of_hostPart (inv_resetAt (s.epoch + 1)) rfl _ false false s.sched s.rdata

/-- Settles O3, over the ways a step ends. -/
theorem everyStepKeepsTheInvariant : Obligations.EveryStepKeepsTheInvariant := by
  intro s t h hstep
  obtain ⟨rest, -, -, rfl⟩ | ⟨rest, -, -, rfl⟩ | ⟨addr, rest, -, rfl⟩ | ⟨addr, v, rest, -, rfl⟩ | ⟨rest, -, rfl⟩ :=
    step_cases s t hstep
  · exact inv_complete_command (inv_withSched h rest) s.command
  · exact inv_withSched h rest
  · exact inv_busRead (inv_withSched h rest) addr
  · exact inv_busWrite (inv_withSched h rest) addr v
  · exact inv_resetEvent _

end Sys2Proof.Proofs
end

section
/-! SUPPORT. The address map over the whole window (R61, R62, R64), and what an access at an offset of it does. -/

namespace Sys2Proof.Proofs

open Sys2Proof.Machine Sys2Proof.Laws

/-- The table of R62 read the other way: the number of the word that a location stands at; for `reserved`, the first of the
reserved words. -/
def wordNumber : Loc → Nat
  | .cmd => 0
  | .status => 1
  | .flen => 2
  | .arg0 => 3
  | .arg1 => 4
  | .arg2 => 5
  | .result => 6
  | .reserved => 7
  | .frame0 => 8
  | .frame1 => 9
  | .mapInfo => 10
  | .regs i => 0x80 + i
  | .fb w => 0x100 + w
  | .value k => 0x200 + k
  | .slotInfo k => 0x300 + k
  | .ut u => 0x400 + u
  | .mtKey k => 0x500 + 2 * k
  | .mtList k => 0x500 + 2 * k + 1
  | .defLo j => 0x800 + 2 * j
  | .defHi j => 0x800 + 2 * j + 1

/-- Every location stands at its word. In a file the index is the distance from the file's first word, and in the files of
pairs half of it. -/
theorem locateWord_wordNumber (l : Loc) : locateWord (wordNumber l) = l := by
  cases l with
  | regs | fb | value | slotInfo | ut =>
    simp (disch := omega) only [locateWord, wordNumber, if_neg, dif_neg, dif_pos, Nat.add_sub_cancel_left]
  | mtKey k | defLo k =>
    simp (disch := omega) only [locateWord, wordNumber, if_neg, dif_neg, dif_pos, if_pos, Nat.add_sub_cancel_left,
      Nat.mul_div_cancel_left]
  | mtList k | defHi k =>
    simp (disch := omega) only [locateWord, wordNumber, if_neg, dif_neg, dif_pos, Nat.add_assoc, Nat.add_sub_cancel_left,
      Nat.mul_add_div, Nat.reduceDiv, Nat.add_zero]
  | _ => rfl

theorem wordNumber_lt (l : Loc) : wordNumber l < 4096 := by
  cases l <;> simp only [wordNumber] <;> omega

/-- An offset selects the location of the word that it lies in (R61, R64). -/
theorem locate_of_word {off : Nat} {l : Loc} (h : off / 4 = wordNumber l) : locate off = l := by
  rw [locate, h, Nat.mod_eq_of_lt (wordNumber_lt l), locateWord_wordNumber]

/-- The words between the registers and the files hold nothing (R62). -/
theorem locateWord_reserved {w : Nat} (h : w = 7 ∨ (0x0B ≤ w ∧ w < 0x80) ∨ (0x180 ≤ w ∧ w < 0x200) ∨
    (0x580 ≤ w ∧ w < 0x800) ∨ 0xA00 ≤ w) : locateWord w = .reserved := by
  simp (disch := omega) only [locateWord, if_neg, dif_neg]

/-- Offset bits [1:0] are ignored (R61). -/
theorem locate_align (off : Nat) : locate (off - off % 4) = locate off := by
  unfold locate
  congr 2
  omega

theorem busRead_base {off : Nat} (h : off < 0x4000) (s : State) :
    s.busRead (Config.base + off) = { s with rdata := s.readLoc (locate off) } := by
  rw [State.busRead, locateAddr_base off h]

theorem busWrite_base {off : Nat} (h : off < 0x4000) (v : Word) (s : State) :
    s.busWrite (Config.base + off) v = s.writeLoc v (locate off) := by
  rw [State.busWrite, locateAddr_base off h]

/-- Settles O48: the window's address map ignores the low bits, and outside the window no location is selected. -/
theorem offsetsIgnoreTheirLowBits : Obligations.OffsetsIgnoreTheirLowBits := by
  refine ⟨fun off v s hoff => ?_, fun addr v s haddr => ?_⟩
  · rw [locate_align]
    exact ⟨busWrite_base hoff v s, busRead_base hoff s⟩
  · rw [State.busWrite, State.busRead, locateAddr_outside addr haddr]
    exact ⟨rfl, rfl⟩

/-- The step of a host read turn (R17). -/
theorem step_read {s : State} {addr : Nat} {rest : List Turn} (h : s.sched = .read addr :: rest) :
    step s = .next (State.busRead addr { s with sched := rest }) := by
  simp only [step, h]

/-- The step of a host write turn (R17). -/
theorem step_write {s : State} {addr : Nat} {v : Word} {rest : List Turn} (h : s.sched = .write addr v :: rest) :
    step s = .next (State.busWrite addr v { s with sched := rest }) := by
  simp only [step, h]

/-- The turns to come are no word of the window. -/
theorem readLoc_withSched (s : State) (rest : List Turn) (l : Loc) :
    ({ s with sched := rest } : State).readLoc l = s.readLoc l := by
  cases l <;> rfl

/-- Settles O49: a read turn is a bus read on the state without that turn, which has the same words. -/
theorem readsHaveNoSideEffect : Obligations.ReadsHaveNoSideEffect := by
  intro s off rest hoff hsched
  rw [step_read hsched, busRead_base hoff, readLoc_withSched]

/-- A location that is neither CMD nor STATUS nor protected ignores a write (R65, R69). -/
theorem writeLoc_ignored (s : State) (v : Word) {l : Loc} (hp : l.isProtected = false) (hcmd : l ≠ .cmd)
    (hstatus : l ≠ .status) : s.writeLoc v l = s := by
  obtain h | ⟨-, h, -⟩ | ⟨-, h, -⟩ | ⟨-, h, -⟩ | ⟨-, h, -⟩ | ⟨h, -⟩ := writeLoc_cases s v l
  · exact h
  · exact absurd h (by simp [hp])
  · exact absurd h hcmd
  · exact absurd h hcmd
  · exact absurd h (by simp [hp])
  · exact absurd h hstatus

/-- The protected locations are those that the table marks (R62). -/
theorem isProtected_iff (l : Loc) : l.isProtected = true ↔ l ∈ [.flen, .arg0, .arg1, .arg2] ∨ (∃ w, l = .fb w) ∨
    (∃ u, l = .ut u) ∨ (∃ k, l = .mtKey k ∨ l = .mtList k) ∨ ∃ j, l = .defLo j ∨ l = .defHi j := by
  cases l <;> simp [Loc.isProtected]

/-- Settles O59: each offset of the table lies in the word of its location, each offset of a gap in a reserved word. -/
theorem addressMapIsTheTable : Obligations.AddressMapIsTheTable := by
  refine ⟨fun off hoff => ⟨locateAddr_base off hoff, (locate_align off).symm⟩, ?registers, ?regsAndFb, ?files, ?functions,
    fun off hgap => locateWord_reserved (by omega), isProtected_iff, fun s v l => writeLoc_ignored s v⟩
  case registers => exact ⟨rfl, rfl, rfl, rfl, rfl, rfl, rfl, rfl, rfl, rfl⟩
  case regsAndFb =>
    intro i
    refine ⟨locate_of_word ?_, locate_of_word ?_⟩ <;> simp only [wordNumber] <;> omega
  case files =>
    intro k
    refine ⟨locate_of_word ?_, locate_of_word ?_, locate_of_word ?_, locate_of_word ?_, locate_of_word ?_⟩ <;>
      simp only [wordNumber] <;> omega
  case functions =>
    intro k
    refine ⟨locate_of_word ?_, locate_of_word ?_⟩ <;> simp only [wordNumber] <;> omega

end Sys2Proof.Proofs
end

section
/-! SUPPORT. What the host cannot write: words without storage for it (R65), and everything but the sticky flags while the
engine is BUSY (R76, R116, R117, R119). -/

namespace Sys2Proof.Proofs

open Sys2Proof.Machine Sys2Proof.Laws

/-- A STATUS write that has 0 in both W1C bits changes nothing (R32). -/
theorem writeStatus_of_clear {v : Word} (h16 : v.getLsbD 16 = false) (h17 : v.getLsbD 17 = false) (s : State) :
    s.writeStatus v = s := by
  simp only [State.writeStatus, h16, h17, Bool.not_false, Bool.and_true]

/-- Settles O50: the mask clears the two W1C bits, and the listed locations are neither CMD nor STATUS nor protected. -/
theorem reservedAndReadOnlyWordsIgnoreWrites : Obligations.ReservedAndReadOnlyWordsIgnoreWrites := by
  intro s v i k
  refine ⟨writeStatus_of_clear (by simp) (by simp) s, fun l hl => ?_, rfl, rfl⟩
  have hkind : l.isProtected = false ∧ l ≠ .cmd ∧ l ≠ .status := by
    revert l
    simp [Loc.isProtected]
  obtain ⟨hp, hcmd, hstatus⟩ := hkind
  exact writeLoc_ignored s v hp hcmd hstatus

/-- While BUSY a write to any location sets or clears the sticky flags at most (R116, R117, R119). -/
theorem writeLoc_busy {s : State} (hbusy : s.engine.state = .busy) (v : Word) (l : Loc) :
    ∃ o b, s.writeLoc v l = { s with status := { s.status with overrun := o, busyWr := b } } := by
  have notIdle : s.engine.state ≠ .idle := by simp [hbusy]
  obtain h | ⟨hidle, -, -⟩ | ⟨hidle, -, -⟩ | ⟨-, -, h⟩ | ⟨-, -, h⟩ | ⟨-, h⟩ := writeLoc_cases s v l
  · exact ⟨_, _, h⟩
  · exact absurd hidle notIdle
  · exact absurd hidle notIdle
  · exact ⟨_, _, h⟩
  · exact ⟨_, _, h⟩
  · exact ⟨_, _, h⟩

/-- So does a bus write, inside the window or not. -/
theorem busWrite_busy {s : State} (hbusy : s.engine.state = .busy) (addr : Nat) (v : Word) :
    ∃ o b, s.busWrite addr v = { s with status := { s.status with overrun := o, busyWr := b } } := by
  obtain h | ⟨l, -, h⟩ := busWrite_cases s addr v <;> rw [h]
  · exact ⟨_, _, rfl⟩
  · exact writeLoc_busy hbusy v l

/-- While BUSY a step with a host turn takes the turn and changes the sticky flags and the last read word at most. -/
theorem step_hostTurn_busy {s t : State} {turn : Turn} {rest : List Turn} (hbusy : s.engine.state = .busy)
    (hsched : s.sched = turn :: rest) (hengine : turn ≠ .engine) (hreset : turn ≠ .reset) (hstep : step s = .next t) :
    ∃ o b r, t = { s with status := { s.status with overrun := o, busyWr := b }, sched := rest, rdata := r } := by
  cases turn with
  | read addr =>
    obtain ⟨r, hr⟩ := busRead_frame { s with sched := rest } addr
    rw [step_read hsched, hr] at hstep
    exact ⟨_, _, r, (Host.Outcome.next.inj hstep).symm⟩
  | write addr v =>
    obtain ⟨o, b, hw⟩ := busWrite_busy (s := { s with sched := rest }) hbusy addr v
    rw [step_write hsched, hw] at hstep
    exact ⟨o, b, _, (Host.Outcome.next.inj hstep).symm⟩
  | engine => exact absurd rfl hengine
  | reset => exact absurd rfl hreset

/-- Settles O8: the sticky flags and the last read word are none of the fields listed. -/
theorem hostAccessKeepsARunningCommand : Obligations.HostAccessKeepsARunningCommand := by
  intro s t turn rest hbusy hsched hengine hreset hstep
  obtain ⟨o, b, r, rfl⟩ := step_hostTurn_busy hbusy hsched hengine hreset hstep
  exact ⟨rfl, rfl, rfl, rfl, rfl, rfl, rfl, rfl, rfl, rfl, rfl⟩

end Sys2Proof.Proofs
end

section
/-! SUPPORT. What a protected word holds after a write that takes effect (R40 to R43, R48, R66, R75). -/

namespace Sys2Proof.Proofs

open Sys2Proof.Machine Sys2Proof.Laws

/-- A write to a protected location while IDLE takes effect (R75, R117). -/
theorem writeLoc_idle {s : State} (hidle : s.engine.state = .idle) (v : Word) {l : Loc} (hp : l.isProtected = true) :
    s.writeLoc v l = s.store v l := by
  have hwrite : s.writeLoc v l = s.writeProtected v l := by
    cases l with
    | cmd | status | result | frame0 | frame1 | mapInfo | regs | value | slotInfo | reserved => exact Bool.noConfusion hp
    | _ => rfl
  simp [hwrite, State.writeProtected, isBusy_eq, hidle]

/-! The words of the tables and FLEN as stored: their bits of the written word, and 0 elsewhere. -/

theorem setWidth_flen (v : Word) : (v.extractLsb' 0 9).setWidth 32 = v &&& 0x1FF := by
  ext i hi
  interval_cases i <;> simp

theorem word_ofWord (v : Word) : (UnitEntry.ofWord v).word = v &&& 0x1FF := by
  ext i hi
  simp only [UnitEntry.ofWord, UnitEntry.word, ← BitVec.getLsbD_eq_getElem, BitVec.getLsbD_append]
  interval_cases i <;> simp [bit]

theorem keyWord_withKey (v : Word) (e : FuncEntry) : (e.withKey v).keyWord = v &&& 0x1FFFF := by
  ext i hi
  simp only [FuncEntry.withKey, FuncEntry.keyWord, ← BitVec.getLsbD_eq_getElem, BitVec.getLsbD_append]
  interval_cases i <;> simp [bit]

theorem listWord_withList (v : Word) (e : FuncEntry) : (e.withList v).listWord = v &&& 0x01FF00FF := by
  ext i hi
  simp only [FuncEntry.withList, FuncEntry.listWord, ← BitVec.getLsbD_eq_getElem, BitVec.getLsbD_append]
  interval_cases i <;> simp

/-- The two words of a function entry hold different fields. -/
theorem listWord_withKey (v : Word) (e : FuncEntry) : (e.withKey v).listWord = e.listWord := rfl

theorem keyWord_withList (v : Word) (e : FuncEntry) : (e.withList v).keyWord = e.keyWord := rfl

/-! The frame buffer. -/

/-- A write of FB word w sets byte i of the word (R66). -/
theorem fbByte_store_fb_same (s : State) (v : Word) (w : Fin 128) {i : Nat} (hi : i < 4) :
    (s.store v (.fb w)).fbByte (4 * w + i) = v.extractLsb' (8 * i) 8 := by
  have hword : (4 * w.val + i) / 4 = w := by omega
  have hbyte : (4 * w.val + i) % 4 = i := by omega
  simp [State.fbByte, State.store, find_writeWord, hword, hbyte]

/-- A write of FB word w leaves the bytes of every other word (R66). -/
theorem fbByte_store_fb_other (s : State) (v : Word) (w : Fin 128) {a : Nat} (ha : a / 4 ≠ w) :
    (s.store v (.fb w)).fbByte a = s.fbByte a := by
  simp [State.fbByte, State.store, find_writeWord, ha]

/-- Settles O55: the two laws of a stored FB word, and the read by its definition. -/
theorem frameBufferWordsAreLittleEndian : Obligations.FrameBufferWordsAreLittleEndian := by
  intro s v w hidle
  rw [writeLoc_idle hidle v rfl]
  exact ⟨fun i hi => fbByte_store_fb_same s v w hi, fun a ha => fbByte_store_fb_other s v w ha, rfl⟩

/-- The four bytes of a word put together again are the word. -/
theorem append_bytes (v : Word) :
    (v.extractLsb' 24 8 ++ v.extractLsb' 16 8 ++ v.extractLsb' 8 8 ++ v.extractLsb' 0 8 : Word) = v := by
  ext i hi
  simp only [← BitVec.getLsbD_eq_getElem, BitVec.getLsbD_append]
  interval_cases i <;> simp

theorem fbWord_store_same (s : State) (v : Word) (w : Fin 128) : (s.store v (.fb w)).fbWord w = v := by
  have hbyte {i : Nat} (hi : i < 4) := fbByte_store_fb_same s v w hi
  have hlow : (s.store v (.fb w)).fbByte (4 * w) = v.extractLsb' 0 8 := hbyte (i := 0) (by decide)
  rw [State.fbWord, hlow, hbyte (by decide), hbyte (by decide), hbyte (by decide)]
  exact append_bytes v

theorem fbWord_store_other (s : State) (v : Word) {w w' : Fin 128} (h : w ≠ w') :
    (s.store v (.fb w)).fbWord w' = s.fbWord w' := by
  have hne : w.val ≠ w'.val := Fin.val_ne_of_ne h
  have hbyte {a : Nat} (ha : a / 4 = w') := fbByte_store_fb_other s v w (a := a) (by omega)
  rw [State.fbWord, hbyte (by omega), hbyte (by omega), hbyte (by omega), hbyte (by omega), State.fbWord]

/-! Every word of the window after a write. -/

/-- The written word holds the bits of its fields (R48). -/
theorem readLoc_store_same (s : State) (v : Word) {l : Loc} (hp : l.isProtected = true) :
    (s.store v l).readLoc l = v &&& l.fieldBits := by
  cases l with
  | flen => exact setWidth_flen v
  | arg0 | arg1 | arg2 => exact (BitVec.and_allOnes (x := v)).symm
  | fb w => exact (fbWord_store_same s v w).trans (BitVec.and_allOnes (x := v)).symm
  | ut u =>
    simp only [State.readLoc, State.store, Fin.getElem_fin, Vector.getElem_set_self]
    exact word_ofWord v
  | mtKey k =>
    simp only [State.readLoc, State.store, Fin.getElem_fin, Vector.getElem_set_self]
    exact keyWord_withKey v _
  | mtList k =>
    simp only [State.readLoc, State.store, Fin.getElem_fin, Vector.getElem_set_self]
    exact listWord_withList v _
  | defLo j | defHi j =>
    simp only [State.readLoc, State.store, Fin.getElem_fin, Vector.getElem_set_self]
    exact (BitVec.and_allOnes (x := v)).symm
  | _ => exact Bool.noConfusion hp

/-- An entry of a file after an update of one entry, seen through a part that the update keeps where it is the same entry. -/
theorem view_getElem_set {α β : Type} {n : Nat} (view : α → β) (xs : Vector α n) (i j : Fin n) (a : α)
    (h : i = j → view a = view xs[i]) : view (xs.set i a)[j] = view xs[j] := by
  by_cases hij : i = j
  · subst hij
    simp [h rfl]
  · rw [Fin.getElem_fin, Vector.getElem_set_ne _ _ (Fin.val_ne_of_ne hij), Fin.getElem_fin]

/-- No other word of the window changes: a register shares no storage with another word, an entry of a file none with another
entry, and the two words of a pair hold different fields of it. -/
theorem readLoc_store_other (s : State) (v : Word) {l l' : Loc} (h : l' ≠ l) : (s.store v l).readLoc l' = s.readLoc l' := by
  cases l with
  | flen =>
    cases l' with
    | flen => exact absurd rfl h
    | _ => rfl
  | arg0 =>
    cases l' with
    | arg0 => exact absurd rfl h
    | _ => rfl
  | arg1 =>
    cases l' with
    | arg1 => exact absurd rfl h
    | _ => rfl
  | arg2 =>
    cases l' with
    | arg2 => exact absurd rfl h
    | _ => rfl
  | fb w =>
    cases l' with
    | fb w' => exact fbWord_store_other s v fun hw => h (congrArg Loc.fb hw.symm)
    | _ => rfl
  | ut u =>
    cases l' with
    | ut u' => exact view_getElem_set UnitEntry.word _ _ _ _ fun hu => absurd (congrArg Loc.ut hu.symm) h
    | _ => rfl
  | mtKey k =>
    cases l' with
    | mtKey k' => exact view_getElem_set FuncEntry.keyWord _ _ _ _ fun hk => absurd (congrArg Loc.mtKey hk.symm) h
    | mtList k' => exact view_getElem_set FuncEntry.listWord _ _ _ _ fun _ => listWord_withKey v _
    | _ => rfl
  | mtList k =>
    cases l' with
    | mtKey k' => exact view_getElem_set FuncEntry.keyWord _ _ _ _ fun _ => keyWord_withList v _
    | mtList k' => exact view_getElem_set FuncEntry.listWord _ _ _ _ fun hk => absurd (congrArg Loc.mtList hk.symm) h
    | _ => rfl
  | defLo j =>
    cases l' with
    | defLo j' => exact view_getElem_set DefEntry.lo _ _ _ _ fun hj => absurd (congrArg Loc.defLo hj.symm) h
    | defHi j' => exact view_getElem_set DefEntry.hi _ _ _ _ fun _ => rfl
    | _ => rfl
  | defHi j =>
    cases l' with
    | defLo j' => exact view_getElem_set DefEntry.lo _ _ _ _ fun _ => rfl
    | defHi j' => exact view_getElem_set DefEntry.hi _ _ _ _ fun hj => absurd (congrArg Loc.defHi hj.symm) h
    | _ => rfl
  | _ => rfl

/-- Settles O54: an idle write to a protected word is a store, read by the two laws above; the stored fields are the bits that
the store takes from the word. -/
theorem idleWritesAreReadBack : Obligations.IdleWritesAreReadBack := by
  refine ⟨fun s v l hidle hp => ?_, fun s v u k hidle => ?_⟩
  · rw [writeLoc_idle hidle v hp]
    exact ⟨readLoc_store_same s v hp, fun l' h => readLoc_store_other s v h⟩
  · refine ⟨?_, ?_, ?_, ?_, ?_, ?_, ?_, ?_, ?_, ?_, ?_, ?_, ?_⟩ <;> rw [writeLoc_idle hidle v rfl] <;>
      simp [State.store, UnitEntry.ofWord, FuncEntry.withKey, FuncEntry.withList]

end Sys2Proof.Proofs
end

section
/-! SUPPORT. The decoder and the encoder are inverse to each other (R88, R89, R91 to R94, R108), and the rows of the opcode
table tell the instructions apart. -/

namespace Sys2Proof.Proofs

open Sys2Proof.Machine Sys2Proof.Laws

/-! CMD words. -/

/-- The constructors of the rows that keep their opcode as an operand (R90). -/
def reservedRows : List (Byte → Instr) := [.reserved08, .reserved10, .reserved20, .reserved40, .reserved80]

/-- The ranges of the reserved rows are disjoint, and no opcode of another row lies in one (R89). -/
theorem decodeOpcode_reserved : ∀ row ∈ reservedRows, ∀ op : Byte, (row op).wf = true → decodeOpcode op = row op := by
  decide

theorem decodeOpcode_wf : ∀ op : Byte, (decodeOpcode op).wf = true := by decide

theorem encode_decodeOpcode : ∀ op : Byte, encode (decodeOpcode op) = [commandWord op] := by decide

@[simp] theorem decodeCommand_commandWord (op : Byte) : decodeCommand (commandWord op) = decodeOpcode op := by
  rw [decodeCommand, commandWord_opcode]

theorem decode_commandWord (op : Byte) (rest : List Word) :
    decode .command ([commandWord op] ++ rest) = .ok (decodeOpcode op, rest) := by
  rw [List.singleton_append, decode, decodeCommand_commandWord]

/-- The opcode alone, with 0 in the bits that the decoder ignores (R88). -/
theorem commandWord_extractLsb' (v : Word) : commandWord (v.extractLsb' 0 8) = v &&& 0xFF#32 := by
  ext i hi
  simp only [commandWord, ← BitVec.getLsbD_eq_getElem, BitVec.getLsbD_append]
  interval_cases i <;> simp

/-- Settles O15: a command's encoding is the word of its opcode. -/
theorem encodeOfACommandKeepsItsOpcode : Obligations.EncodeOfACommandKeepsItsOpcode := by
  intro v
  refine ⟨decodeCommand_format v, decodeOpcode_wf _, ?_⟩
  rw [decodeCommand, encode_decodeOpcode, commandWord_extractLsb']

/-- Settles O16: a row reads the opcode alone, so the claim is checked at each of its values. -/
theorem everyOpcodeSelectsOneRow : Obligations.EveryOpcodeSelectsOneRow := by
  intro op
  rw [decodeCommand_commandWord]
  revert op
  decide

/-! DEF words. -/

/-- The instruction of a definition's fields (R93, R94). -/
def definitionOf (dtype : BitVec 2) (wo : BitVec 3) (d : DefOperands) : Instr :=
  if dtype = 0b00#2 then .u16 wo d
  else if dtype = 0b01#2 then
    if wo = 0b000#3 then .f32Abcd d
    else if wo = 0b001#3 then .f32Badc d
    else if wo = 0b010#3 then .f32Cdab d
    else if wo = 0b011#3 then .f32Dcba d
    else .f32Reserved wo d
  else .raw dtype wo d

theorem decodeDefinition_eq_definitionOf (lo hi : Word) :
    decodeDefinition lo hi = definitionOf (lo.extractLsb' 16 2) (lo.extractLsb' 18 3) (decodeOperands lo hi) := rfl

@[simp] theorem decodeDefinition_defLoWord (dtype : BitVec 2) (wo : BitVec 3) (d : DefOperands) :
    decodeDefinition (defLoWord dtype wo d) d.hi = definitionOf dtype wo d := by
  rw [decodeDefinition_eq_definitionOf, defLoWord_dtype, defLoWord_wordOrder, decodeOperands_defLoWord]

theorem decode_defWords (dtype : BitVec 2) (wo : BitVec 3) (d : DefOperands) (rest : List Word) :
    decode .definition (defWords dtype wo d ++ rest) = .ok (definitionOf dtype wo d, rest) := by
  rw [← decodeDefinition_defLoWord]
  rfl

/-- The rows that keep the word order or the datatype as an operand keep it in the range that selects them (R93, R94). -/
theorem definitionOf_wf (dtype : BitVec 2) (wo : BitVec 3) (d : DefOperands) : (definitionOf dtype wo d).wf = true := by
  unfold definitionOf
  split_ifs with hu16 hf32
  · rfl
  · rfl
  · rfl
  · rfl
  · rfl
  · change wo.getLsbD 2 = true
    clear hf32
    revert wo
    decide
  · change dtype.getLsbD 1 = true
    revert dtype
    decide

theorem definitionOf_f32Reserved {wo : BitVec 3} {d : DefOperands} (h : (Instr.f32Reserved wo d).wf = true) :
    definitionOf 0b01#2 wo d = .f32Reserved wo d := by
  change wo.getLsbD 2 = true at h
  have hne : wo ≠ 0b000#3 ∧ wo ≠ 0b001#3 ∧ wo ≠ 0b010#3 ∧ wo ≠ 0b011#3 := by
    revert wo
    decide
  simp [definitionOf, hne]

theorem definitionOf_raw {dtype : BitVec 2} {wo : BitVec 3} {d : DefOperands} (h : (Instr.raw dtype wo d).wf = true) :
    definitionOf dtype wo d = .raw dtype wo d := by
  change dtype.getLsbD 1 = true at h
  have hne : dtype ≠ 0b00#2 ∧ dtype ≠ 0b01#2 := by
    revert dtype
    decide
  simp [definitionOf, hne]

theorem encode_definitionOf (dtype : BitVec 2) (wo : BitVec 3) (d : DefOperands) :
    encode (definitionOf dtype wo d) = defWords dtype wo d := by
  unfold definitionOf
  split_ifs <;> subst_vars <;> rfl

theorem encode_decodeDefinition (lo hi : Word) : encode (decodeDefinition lo hi) = [lo, hi] := by
  rw [decodeDefinition_eq_definitionOf, encode_definitionOf, defWords, defLoWord_decodeOperands]
  rfl

/-- Settles O14: the fields of a definition are all the bits of its words. -/
theorem encodeOfADefinitionIsItsWords : Obligations.EncodeOfADefinitionIsItsWords := fun lo hi =>
  ⟨decodeDefinition_format lo hi, definitionOf_wf _ _ _, encode_decodeDefinition lo hi⟩

/-- A definition's row does not depend on its operands. -/
theorem definitionOf_mnemonic (dtype : BitVec 2) (wo : BitVec 3) (d d' : DefOperands) :
    (definitionOf dtype wo d).mnemonic = (definitionOf dtype wo d').mnemonic := by
  unfold definitionOf
  split_ifs <;> rfl

/-- A DEF row reads DTYPE and WO alone. -/
theorem holds_defLoWord {r : OpcodeRow} (hr : r ∈ definitionRows) (dtype : BitVec 2) (wo : BitVec 3) (d : DefOperands) :
    r.holds (defLoWord dtype wo d) = r.holds ((wo ++ dtype).setWidth 32 <<< 16) := by
  have hmask : r.mask &&& 0x001F0000#32 = r.mask := by
    revert r
    decide
  rw [OpcodeRow.holds, EncodingRow.definition_mask dtype wo d r.mask hmask, OpcodeRow.holds]

/-- At each value of DTYPE and WO one DEF row holds, that of the instruction they select. -/
theorem definitionRows_filter_fields : ∀ (dtype : BitVec 2) (wo : BitVec 3),
    (definitionRows.filter fun r => r.holds ((wo ++ dtype).setWidth 32 <<< 16)).map OpcodeRow.mnemonic
      = [(definitionOf dtype wo ⟨0, 0, 0, 0, 0, 0⟩).mnemonic] := by
  decide

theorem definitionRows_filter_defLoWord (dtype : BitVec 2) (wo : BitVec 3) (d : DefOperands) :
    (definitionRows.filter fun r => r.holds (defLoWord dtype wo d)).map OpcodeRow.mnemonic
      = [(definitionOf dtype wo d).mnemonic] := by
  rw [List.filter_congr fun r hr => holds_defLoWord hr dtype wo d, definitionRows_filter_fields, definitionOf_mnemonic]

/-- Settles O17: the row and the instruction are both selected by DTYPE and WO. -/
theorem everyDefinitionSelectsOneRow : Obligations.EveryDefinitionSelectsOneRow := by
  intro lo hi
  rw [decodeDefinition_eq_definitionOf, ← definitionRows_filter_defLoWord, defLoWord_decodeOperands]

/-! Both formats. -/

/-- Settles O13: a command is read back from its opcode, a definition from its datatype, word order and operands. -/
theorem decodeOfEncodeIsTheInstruction : Obligations.DecodeOfEncodeIsTheInstruction := by
  intro i rest hwf
  cases i with
  | nop | decode | map | decmap | f32 | scale | fmul | reserved07 => exact decode_commandWord _ rest
  | reserved08 op | reserved10 op | reserved20 op | reserved40 op | reserved80 op =>
    exact (decode_commandWord op rest).trans (by rw [decodeOpcode_reserved _ (by simp [reservedRows]) op hwf])
  | u16 | f32Abcd | f32Badc | f32Cdab | f32Dcba => exact decode_defWords _ _ _ rest
  | f32Reserved wo d => exact (decode_defWords 0b01#2 wo d rest).trans (by rw [definitionOf_f32Reserved hwf])
  | raw dtype wo d => exact (decode_defWords dtype wo d rest).trans (by rw [definitionOf_raw hwf])

/-- Settles O18, by running the decoder. -/
theorem writtenOutWordsDecode : Obligations.WrittenOutWordsDecode := ⟨rfl, rfl, rfl, rfl, rfl, rfl, rfl⟩

end Sys2Proof.Proofs
end

section
/-! SUPPORT. The DEF line of a host program writes the encoding of a definition (R106). -/

namespace Sys2Proof.Proofs

open Sys2Proof.Machine Sys2Proof.Laws

/-- WO of a DEF line; the integer datatypes write 0 there. -/
def wordOrderOf : DefType → BitVec 3
  | .u16 _ _ | .raw _ _ | .raw3 _ _ => 0
  | .f32 wo _ => wo

/-- S of a DEF line; float32 writes 0 there. -/
def shiftOf : DefType → BitVec 5
  | .u16 _ s | .raw _ s | .raw3 _ s => s
  | .f32 _ _ => 0

/-- The operands of the definition that a DEF line names, with its reserved fields 0. -/
def operandsOf (slot idx : Byte) (ty : DefType) : DefOperands := ⟨idx, slot, shiftOf ty, 0, 0, ty.hi⟩

/-- Fields shifted to their bits and joined by `|` make the DEF_LO word of R91 with its reserved fields 0. -/
theorem or_fields_eq_defLoWord (dtype : BitVec 2) (wo : BitVec 3) (s : BitVec 5) (slot idx : Byte) (hi : Word) :
    (s.setWidth 32 <<< 24) ||| (wo.setWidth 32 <<< 18) ||| (dtype.setWidth 32 <<< 16) ||| (slot.setWidth 32 <<< 8) |||
      idx.setWidth 32 = defLoWord dtype wo ⟨idx, slot, s, 0, 0, hi⟩ := by
  ext i hi
  simp only [defLoWord, ← BitVec.getLsbD_eq_getElem, BitVec.getLsbD_append, BitVec.getLsbD_or, BitVec.getLsbD_shiftLeft,
    BitVec.getLsbD_setWidth]
  interval_cases i <;> simp

theorem lo_eq_defLoWord (slot idx : Byte) (ty : DefType) :
    ty.lo slot idx = defLoWord ty.dtype (wordOrderOf ty) (operandsOf slot idx ty) := by
  rw [operandsOf, ← or_fields_eq_defLoWord]
  cases ty <;> simp [DefType.lo, DefType.dtype, wordOrderOf, shiftOf]

/-- The two words of a DEF line are the encoding of its definition. -/
theorem defWords_eq_line (slot idx : Byte) (ty : DefType) :
    defWords ty.dtype (wordOrderOf ty) (operandsOf slot idx ty) = [ty.lo slot idx, ty.hi] := by
  rw [lo_eq_defLoWord]
  rfl

/-- Two reserved fields and an unused WO between them and DTYPE are one field of 0. -/
theorem defLoWord_integer (dtype : BitVec 2) (s : BitVec 5) (slot idx : Byte) (hi : Word) :
    defLoWord dtype 0 ⟨idx, slot, s, 0, 0, hi⟩ = 0#3 ++ s ++ 0#6 ++ dtype ++ slot ++ idx := by
  ext i hi
  simp only [defLoWord, ← BitVec.getLsbD_eq_getElem, BitVec.getLsbD_append]
  interval_cases i <;> simp

theorem defLoWord_float (dtype : BitVec 2) (wo : BitVec 3) (slot idx : Byte) (hi : Word) :
    defLoWord dtype wo ⟨idx, slot, 0, 0, 0, hi⟩ = 0#11 ++ wo ++ dtype ++ slot ++ idx := by
  ext i hi
  simp only [defLoWord, ← BitVec.getLsbD_eq_getElem, BitVec.getLsbD_append]
  interval_cases i <;> simp

/-- Settles O58: every type's lo is one DEF_LO word, read at its bits and as the encoder's. -/
theorem definitionListingWritesTheEncoding : Obligations.DefinitionListingWritesTheEncoding := by
  refine ⟨fun _ _ _ _ => rfl, fun slot idx m sh wo f => ?atBits, fun slot idx m sh wo f => ?encoded⟩
  case atBits =>
    have hlo (ty : DefType) := lo_eq_defLoWord slot idx ty
    have hm : m.setWidth 32 = 0#16 ++ m := setWidth_eq_zero_append 16 m
    exact ⟨hm, (hlo _).trans (defLoWord_integer _ _ _ _ _), hm, (hlo _).trans (defLoWord_integer _ _ _ _ _),
      hm, (hlo _).trans (defLoWord_integer _ _ _ _ _), rfl, (hlo _).trans (defLoWord_float _ _ _ _ _)⟩
  case encoded =>
    have hline (ty : DefType) := defWords_eq_line slot idx ty
    exact ⟨hline (.u16 m sh), hline (.raw m sh), hline (.raw3 m sh), hline (.f32 0b000 f), hline (.f32 0b001 f),
      hline (.f32 0b010 f), hline (.f32 0b011 f), fun _ => hline (.f32 wo f), encode_decodeDefinition _ _⟩

end Sys2Proof.Proofs
end

section
/-! SUPPORT. STATUS read back at the bits of its fields (R32, R102). -/

namespace Sys2Proof.Proofs

open Sys2Proof.Machine Sys2Proof.Laws

@[simp] theorem statusWord_busy (s : State) : s.statusWord[0] = s.isBusy := by
  simp only [State.statusWord, ← BitVec.getLsbD_eq_getElem, BitVec.getLsbD_append]
  simp

@[simp] theorem statusWord_done (s : State) : s.statusWord[1] = s.status.done := by
  simp only [State.statusWord, ← BitVec.getLsbD_eq_getElem, BitVec.getLsbD_append]
  simp

@[simp] theorem statusWord_err (s : State) : s.statusWord.extractLsb' 4 4 = s.status.err.code := by
  ext i hi
  simp only [State.statusWord, BitVec.getElem_extractLsb', BitVec.getLsbD_append]
  interval_cases i <;> simp

@[simp] theorem statusWord_lastOp (s : State) : s.statusWord.extractLsb' 8 8 = s.status.lastOp := by
  ext i hi
  simp only [State.statusWord, BitVec.getElem_extractLsb', BitVec.getLsbD_append]
  interval_cases i <;> simp

@[simp] theorem statusWord_overrun (s : State) : s.statusWord[16] = s.status.overrun := by
  simp only [State.statusWord, ← BitVec.getLsbD_eq_getElem, BitVec.getLsbD_append]
  simp

@[simp] theorem statusWord_busyWr (s : State) : s.statusWord[17] = s.status.busyWr := by
  simp only [State.statusWord, ← BitVec.getLsbD_eq_getElem, BitVec.getLsbD_append]
  simp

/-- The codes 7 to 15 are never produced (R102). -/
theorem errCode_code_le (e : ErrCode) : e.code.toNat ≤ 6 := by
  cases e <;> decide

/-- Settles O57: STATUS holds each field at its bits, and ERR is the code of an error. -/
theorem statusFieldsStandAtTheirBits : Obligations.StatusFieldsStandAtTheirBits := by
  intro s w
  have herr : w.extractLsb' 4 4 = s.status.err.code := statusWord_err s
  rw [herr]
  exact ⟨statusWord_busy s, statusWord_done s, statusWord_lastOp s, statusWord_overrun s, statusWord_busyWr s,
    congrArg ErrCode.code, congrArg ErrCode.code, congrArg ErrCode.code, congrArg ErrCode.code, congrArg ErrCode.code,
    congrArg ErrCode.code, congrArg ErrCode.code, errCode_code_le _⟩

end Sys2Proof.Proofs
end

section
/-! SUPPORT. Every step takes one turn, and which turns move the engine between IDLE and BUSY (R111 to R113). -/

namespace Sys2Proof.Proofs

open Sys2Proof.Machine Sys2Proof.Laws

/-- No host access changes the turns to come (R69). -/
theorem busWrite_sched (s : State) (addr : Nat) (v : Word) : (s.busWrite addr v).sched = s.sched := by
  obtain h | ⟨l, -, h⟩ := busWrite_cases s addr v <;> rw [h]
  obtain ⟨inputs, tables, status, engine, hw⟩ := writeLoc_frame s v l
  rw [hw]

theorem busRead_sched (s : State) (addr : Nat) : (s.busRead addr).sched = s.sched := by
  obtain ⟨r, h⟩ := busRead_frame s addr
  rw [h]

theorem busRead_engine (s : State) (addr : Nat) : (s.busRead addr).engine = s.engine := by
  obtain ⟨r, h⟩ := busRead_frame s addr
  rw [h]

theorem commandBody_sched (i : Instr) (s : State) : (commandBody i s).1.sched = s.sched := by
  obtain ⟨f, m, r, c, h⟩ := commandBody_frame i s
  rw [h]

theorem engineStep_total (s : State) : ∃ t, engineStep s = .next t := by
  cases h : s.engine.state with
  | busy => exact engineStep_busy h ▸ exec_total s.command s
  | idle => exact ⟨s, engineStep_idle h⟩

/-- The step of a reset turn (R225). -/
theorem step_reset {s : State} {rest : List Turn} (h : s.sched = .reset :: rest) :
    step s = .next (State.resetEvent { s with sched := rest }) := by
  simp only [step, h]

/-- Every turn answers a next state (R113, R200). -/
theorem step_total (s : State) : ∃ t, step s = .next t := by
  cases hsched : s.sched with
  | nil => exact step_nil hsched ▸ engineStep_total s
  | cons turn rest =>
    cases turn with
    | read addr => exact ⟨_, step_read hsched⟩
    | write addr v => exact ⟨_, step_write hsched⟩
    | engine => exact step_engine hsched ▸ engineStep_total _
    | reset => exact ⟨_, step_reset hsched⟩

/-- A step takes the first turn of the schedule, if there is one (log 2). -/
theorem step_sched {s t : State} (h : step s = .next t) : t.sched = s.sched.tail := by
  have engineTurn {rest : List Turn} (hturn : s.sched = .engine :: rest ∨ s.sched = [] ∧ rest = []) :
      rest = s.sched.tail := by
    obtain hsched | ⟨hsched, rfl⟩ := hturn <;> rw [hsched] <;> rfl
  obtain ⟨rest, hturn, -, rfl⟩ | ⟨rest, hturn, -, rfl⟩ | ⟨addr, rest, hsched, rfl⟩ | ⟨addr, v, rest, hsched, rfl⟩ |
    ⟨rest, hsched, rfl⟩ := step_cases s t h
  · rw [complete_sched, commandBody_sched]
    exact engineTurn hturn
  · exact engineTurn hturn
  · rw [busRead_sched, hsched, List.tail_cons]
  · rw [busWrite_sched, hsched, List.tail_cons]
  · rw [hsched]
    rfl

/-- Settles O4: every kind of turn answers a next state, and no command, host access or reset changes the turns to come. -/
theorem everyStepAnswersANextState : Obligations.EveryStepAnswersANextState := by
  intro s
  obtain ⟨t, hstep⟩ := step_total s
  exact ⟨t, hstep, step_sched hstep⟩

/-- An IDLE engine is made BUSY by the acceptance of a command alone (R112). -/
theorem writeLoc_starts {s : State} {v : Word} {l : Loc} (hidle : s.engine.state = .idle)
    (hbusy : (s.writeLoc v l).engine.state = .busy) : l = .cmd := by
  have kept {t : State} (hw : s.writeLoc v l = t) (ht : t.engine = s.engine) : l = .cmd := by
    rw [hw, ht, hidle] at hbusy
    exact EngState.noConfusion hbusy
  obtain hw | ⟨-, -, hw⟩ | ⟨-, hl, -⟩ | ⟨-, hl, -⟩ | ⟨-, -, hw⟩ | ⟨-, hw⟩ := writeLoc_cases s v l
  · exact kept hw rfl
  · obtain ⟨inputs, tables, hstore⟩ := store_frame s v l
    exact kept (hw.trans hstore) rfl
  · exact hl
  · exact hl
  · exact kept hw rfl
  · exact kept hw rfl

theorem busWrite_starts {s : State} {addr : Nat} {v : Word} (hidle : s.engine.state = .idle)
    (hbusy : (s.busWrite addr v).engine.state = .busy) : locateAddr addr = some .cmd := by
  obtain h | ⟨l, hl, h⟩ := busWrite_cases s addr v <;> rw [h] at hbusy
  · exact absurd hbusy (by simp [hidle])
  · rw [hl, writeLoc_starts hidle hbusy]

/-- While BUSY no host write touches the engine (R76). -/
theorem busWrite_engine_busy {s : State} (hbusy : s.engine.state = .busy) (addr : Nat) (v : Word) :
    (s.busWrite addr v).engine = s.engine := by
  obtain ⟨o, b, h⟩ := busWrite_busy hbusy addr v
  rw [h]

/-- Settles O9, over the ways a step ends: a completion and a reset leave the engine IDLE, a read leaves it as it is, and a
host write starts it through CMD alone and never stops it. -/
theorem onlyCommandWritesStartTheEngine : Obligations.OnlyCommandWritesStartTheEngine := by
  intro s t hstep
  obtain ⟨rest, hturn, hs, rfl⟩ | ⟨rest, -, hs, rfl⟩ | ⟨addr, rest, -, rfl⟩ | ⟨addr, v, rest, hsched, rfl⟩ |
    ⟨rest, hsched, rfl⟩ := step_cases s t hstep
  · refine ⟨fun hidle _ => absurd hidle (by simp [hs]), fun _ _ => ?_⟩
    obtain hsched | ⟨hsched, -⟩ := hturn
    · exact .inr (.inl ⟨rest, hsched⟩)
    · exact .inl hsched
  · exact ⟨fun _ hbusy => absurd hbusy (by simp [hs]), fun hbusy _ => absurd hbusy (by simp [hs])⟩
  · rw [busRead_engine]
    exact ⟨fun hidle hbusy => absurd hbusy (by simp [hidle]), fun hbusy hidle => absurd hidle (by simp [hbusy])⟩
  · refine ⟨fun hidle hbusy => ⟨addr, v, rest, hsched, busWrite_starts (s := { s with sched := rest }) hidle hbusy⟩, fun hbusy hidle => ?_⟩
    rw [busWrite_engine_busy (s := { s with sched := rest }) hbusy] at hidle
    exact absurd hidle (by simp [hbusy])
  · exact ⟨fun _ hbusy => EngState.noConfusion hbusy, fun _ _ => .inr (.inr ⟨rest, hsched⟩)⟩

end Sys2Proof.Proofs
end

section
/-! SUPPORT. What a command writes, what it reads of STATUS, and the commands that compute nothing (R114, R115, R120, R121). -/

namespace Sys2Proof.Proofs

open Sys2Proof.Machine Sys2Proof.Laws

/-! What an instruction writes. -/

/-- A definition stores into its slot or stores nothing, and moves the cursor (R31, R153, R158). -/
theorem runDefinition_afterStore {i : Instr} (h : i.format = .definition) (s : State) :
    ∃ x, runDefinition i s = afterStore s x := by
  cases i with
  | u16 wo d => exact ⟨_, mapInteger_advance .int d s⟩
  | f32Abcd d => exact ⟨_, mapFloat_advance 0b000#3 d s⟩
  | f32Badc d => exact ⟨_, mapFloat_advance 0b001#3 d s⟩
  | f32Cdab d => exact ⟨_, mapFloat_advance 0b010#3 d s⟩
  | f32Dcba d => exact ⟨_, mapFloat_advance 0b011#3 d s⟩
  | f32Reserved wo d => exact ⟨_, mapFloat_advance wo d s⟩
  | raw dtype wo d => exact ⟨_, mapInteger_advance .raw d s⟩
  | _ => exact Format.noConfusion h

/-- A definition writes the map state and the cursor at most. -/
theorem runDefinition_frame {i : Instr} (h : i.format = .definition) (s : State) :
    ∃ m c, runDefinition i s = { s with mapping := m, engine := { s.engine with dcur := c } } := by
  obtain ⟨x, hx⟩ := runDefinition_afterStore h s
  rw [hx]
  cases x with
  | none => exact ⟨_, _, rfl⟩
  | some _ => exact ⟨_, _, rfl⟩

/-- DECMAP writes the frame and map state and the cursor at most (R162). -/
theorem decmapBody_frame (s : State) :
    ∃ f m c, (decmapBody s).1 = { s with frame := f, mapping := m, engine := { s.engine with dcur := c } } := by
  obtain ⟨f, hf⟩ := decodeBody_frame s
  rw [decmapBody_eq]
  split
  · obtain ⟨m, c, hm⟩ := mapBody_frame (decodeBody s).1
    exact ⟨f, m, c, by rw [hm, hf]⟩
  · exact ⟨f, _, _, hf⟩

/-- Only the direct commands write RESULT (R24). -/
theorem commandBody_result {i : Instr} (hf32 : i ≠ .f32) (hscale : i ≠ .scale) (hfmul : i ≠ .fmul) (s : State) :
    (commandBody i s).1.result = s.result := by
  cases i with
  | f32 => exact absurd rfl hf32
  | scale => exact absurd rfl hscale
  | fmul => exact absurd rfl hfmul
  | decode =>
    obtain ⟨f, h⟩ := decodeBody_frame s
    rw [commandBody, h]
  | map =>
    obtain ⟨m, c, h⟩ := mapBody_frame s
    rw [commandBody, h]
  | decmap =>
    obtain ⟨f, m, c, h⟩ := decmapBody_frame s
    rw [commandBody, h]
  | _ => rfl

/-- Only DECODE and DECMAP write the frame state. -/
theorem commandBody_keeps_frame {i : Instr} (hdecode : i ≠ .decode) (hdecmap : i ≠ .decmap) (s : State) :
    (commandBody i s).1.frame = s.frame := by
  cases i with
  | decode => exact absurd rfl hdecode
  | decmap => exact absurd rfl hdecmap
  | map =>
    obtain ⟨m, c, h⟩ := mapBody_frame s
    rw [commandBody, h]
  | _ => rfl

/-- Of the commands only DECODE, MAP and DECMAP write the map state. -/
theorem commandBody_keeps_mapping {i : Instr} (hdecode : i ≠ .decode) (hmap : i ≠ .map) (hdecmap : i ≠ .decmap) (s : State) :
    (commandBody i s).1.mapping = s.mapping := by
  cases i with
  | decode => exact absurd rfl hdecode
  | map => exact absurd rfl hmap
  | decmap => exact absurd rfl hdecmap
  | _ => rfl

/-- DECODE clears the map state on each of its paths (R140). -/
theorem commandBody_decode_mapping (s : State) : (commandBody .decode s).1.mapping = .cleared := by
  obtain ⟨f, h⟩ := decodeBody_frame s
  rw [commandBody, h]

/-- Settles O11: a command is the completion of its body, whose writes are listed above; a definition writes the map state
and the cursor. -/
theorem commandsWriteOnlyTheirWriteSet : Obligations.CommandsWriteOnlyTheirWriteSet := by
  intro i s t hexec
  cases hformat : i.format with
  | command =>
    rw [exec_command i s hformat] at hexec
    obtain rfl := Host.Outcome.next.inj hexec
    obtain ⟨f, m, r, c, hbody⟩ := commandBody_frame i s
    refine ⟨?inputs, ?tables, ?epoch, ?sched, ?rdata, ?overrun, ?busyWr,
      fun hf32 hscale hfmul => commandBody_result hf32 hscale hfmul s,
      fun hdecode hdecmap => commandBody_keeps_frame hdecode hdecmap s,
      fun _ hdecode hmap hdecmap => commandBody_keeps_mapping hdecode hmap hdecmap s, ?cleared⟩
    case cleared =>
      rintro rfl
      exact commandBody_decode_mapping s
    all_goals simp [hbody]
  | definition =>
    rw [exec_definition i s hformat] at hexec
    obtain rfl := Host.Outcome.next.inj hexec
    obtain ⟨m, c, hrun⟩ := runDefinition_frame hformat s
    rw [hrun]
    refine ⟨rfl, rfl, rfl, rfl, rfl, rfl, rfl, fun _ _ _ => rfl, fun _ _ => rfl, nofun, ?_⟩
    rintro rfl
    exact Format.noConfusion hformat

/-! What a command reads of STATUS. -/

/-- A command on another STATUS and ENG_STATE differs in these alone (R120). -/
theorem commandBody_patch (i : Instr) (st : Status) (es : EngState) (s : State) :
    commandBody i (patch st es s) = (patch st es (commandBody i s).1, (commandBody i s).2) := by
  cases i with
  | decode => exact decodeBody_patch st es s
  | map => exact mapBody_patch st es s
  | decmap =>
    simp only [commandBody, decmapBody_eq, decodeBody_patch]
    split
    · exact mapBody_patch st es _
    · rfl
  | _ => rfl

/-- A completion overwrites ERR, LAST_OP and DONE, so of STATUS it keeps the sticky flags alone (R113). -/
theorem complete_patch (r : Result) (e : ErrCode) (op : Byte) (d : Bool) :
    complete (patch { r.1.status with err := e, lastOp := op, done := d } r.1.engine.state r.1, r.2) = complete r := rfl

/-- Settles O12: the three fields are no input of the command's body, and the completion overwrites them. -/
theorem earlierErrorsDoNotAlterACommand : Obligations.EarlierErrorsDoNotAlterACommand := by
  intro i s e op d hformat
  change exec i (patch { s.status with err := e, lastOp := op, done := d } s.engine.state s) = exec i s
  obtain ⟨f, m, r, c, hbody⟩ := commandBody_frame i s
  rw [exec_command i _ hformat, exec_command i s hformat, commandBody_patch, ← complete_patch (commandBody i s) e op d, hbody]

/-! The commands that compute nothing. -/

/-- Settles O19: NOP is the completion without an error, on the state as it is. -/
theorem nopOnlyCompletes : Obligations.NopOnlyCompletes := by
  intro s
  refine ⟨rfl, fun hop => ⟨s.completed .ok, rfl, ?_⟩⟩
  rw [State.completed, hop]

/-- The instruction of each of the six reserved rows, with a given opcode as its operand where it has one (R90). -/
def reservedInstrs (op : Byte) : List Instr := .reserved07 :: reservedRows.map (· op)

/-- Every opcode from 7 up decodes to one of a reserved row, with the opcode itself as its operand (R89, R90). -/
theorem decodeOpcode_mem_reservedInstrs : ∀ op : Byte, 7 ≤ op.toNat → decodeOpcode op ∈ reservedInstrs op := by decide

/-- A reserved row raises BAD_CMD and writes nothing else (R115). -/
theorem exec_reserved {i : Instr} {op : Byte} (h : i ∈ reservedInstrs op) (s : State) :
    exec i s = .next (s.completed .badCmd) := by
  simp only [reservedInstrs, reservedRows, List.map_cons, List.map_nil, List.mem_cons, List.not_mem_nil, or_false] at h
  obtain rfl | rfl | rfl | rfl | rfl | rfl := h <;> rfl

/-- The latched command is the one of the latched opcode (R45). -/
theorem command_eq_decodeOpcode (s : State) : s.command = decodeOpcode s.engine.op := decodeCommand_commandWord _

/-- Settles O20: every reserved row raises BAD_CMD, and every opcode from 7 up is in one of them. -/
theorem reservedOpcodesCompleteWithBadCmd : Obligations.ReservedOpcodesCompleteWithBadCmd := by
  intro op s
  refine ⟨rfl, rfl, rfl, rfl, rfl, rfl, fun hop => ⟨?_, rfl⟩⟩
  rw [command_eq_decodeOpcode]
  exact exec_reserved (decodeOpcode_mem_reservedInstrs _ hop) s

end Sys2Proof.Proofs
end

section
/-! SUPPORT. What a host write to CMD, to STATUS and to a protected location does in either engine state (R112, R116, R117,
R119). -/

namespace Sys2Proof.Proofs

open Sys2Proof.Machine Sys2Proof.Laws

/-- The step of a host write of the window's word at an offset. -/
theorem step_write_base {s : State} {off : Nat} {v : Word} {rest : List Turn} (hoff : off < 0x4000)
    (h : s.sched = .write (Config.base + off) v :: rest) :
    step s = .next (State.writeLoc v (locate off) { s with sched := rest }) := by
  rw [step_write h, busWrite_base hoff]

theorem writeCommand_idle {s : State} (hidle : s.engine.state = .idle) (v : Word) :
    s.writeCommand v = s.accept (v.extractLsb' 0 8) := by
  simp [State.writeCommand, isBusy_eq, hidle]

theorem writeCommand_busy {s : State} (hbusy : s.engine.state = .busy) (v : Word) :
    s.writeCommand v = { s with status := { s.status with overrun := true } } := by
  simp [State.writeCommand, isBusy_eq, hbusy]

/-- Settles O51: BASE is the address of CMD, and a CMD write accepts while IDLE and sets OVERRUN while BUSY. -/
theorem commandWriteIsAcceptedOrDropped : Obligations.CommandWriteIsAcceptedOrDropped := by
  intro s v rest hsched
  have hstep : step s = .next (State.writeCommand v { s with sched := rest }) := step_write_base (off := 0) (by decide) hsched
  refine ⟨fun hidle => ?_, fun hbusy => ?_⟩
  · exact hstep.trans (congrArg _ (writeCommand_idle (s := { s with sched := rest }) hidle v))
  · exact hstep.trans (congrArg _ (writeCommand_busy (s := { s with sched := rest }) hbusy v))

/-- A protected location is none of those with a write of their own. -/
theorem writeLoc_protected (s : State) (v : Word) {l : Loc} (hp : l.isProtected = true) :
    s.writeLoc v l = s.writeProtected v l := by
  cases l with
  | cmd | status | result | frame0 | frame1 | mapInfo | regs | value | slotInfo | reserved => exact Bool.noConfusion hp
  | _ => rfl

/-- While BUSY a write to a protected location is dropped and sets BUSYWR (R117). -/
theorem writeLoc_protected_busy {s : State} (hbusy : s.engine.state = .busy) (v : Word) {l : Loc} (hp : l.isProtected = true) :
    s.writeLoc v l = { s with status := { s.status with busyWr := true } } := by
  rw [writeLoc_protected s v hp]
  simp [State.writeProtected, isBusy_eq, hbusy]

/-- Settles O52: the offset selects a protected location, and the write to it is dropped. -/
theorem protectedWritesAreDroppedWhileBusy : Obligations.ProtectedWritesAreDroppedWhileBusy := by
  intro s v off rest hoff hp hsched hbusy
  rw [step_write_base hoff hsched, writeLoc_protected_busy (s := { s with sched := rest }) hbusy v hp]

/-! A STATUS write, as STATUS reads after it. -/

/-- The mask of the two W1C bits picks them out of the written word, laid out as STATUS is (R32). -/
theorem and_stickyMask (v : Word) :
    v &&& 0x00030000 = 0#14 ++ bit (v.getLsbD 17) ++ bit (v.getLsbD 16) ++ 0#8 ++ 0#4 ++ 0#2 ++ 0#1 ++ 0#1 := by
  ext i hi
  simp only [bit, ← BitVec.getLsbD_eq_getElem, BitVec.getLsbD_append]
  interval_cases i <;> simp

theorem bit_and_not (a b : Bool) : bit (a && !b) = bit a &&& ~~~bit b := by
  cases a <;> cases b <;> rfl

/-- Bits are cleared field by field. -/
theorem append_and_not {n m : Nat} {a' a b : BitVec n} {x' x y : BitVec m} (ha : a' = a &&& ~~~b) (hx : x' = x &&& ~~~y) :
    a' ++ x' = (a ++ x) &&& ~~~(b ++ y) := by
  rw [BitVec.not_append, BitVec.and_append, ha, hx]

/-- A field whose bits are all written 0 stays. -/
theorem and_not_zero {n : Nat} (x : BitVec n) : x = x &&& ~~~0#n := by simp

theorem append_keep {n m : Nat} {a' a b : BitVec n} (x : BitVec m) (ha : a' = a &&& ~~~b) :
    a' ++ x = (a ++ x) &&& ~~~(b ++ 0#m) := append_and_not ha (and_not_zero x)

/-- A STATUS write clears in the word the host reads the W1C bits written 1 (R32, R119). -/
theorem statusWord_writeStatus (s : State) (v : Word) :
    (s.writeStatus v).statusWord = s.statusWord &&& ~~~(v &&& 0x00030000) := by
  have upper := append_and_not (append_and_not (and_not_zero 0#14) (bit_and_not s.status.busyWr (v.getLsbD 17)))
    (bit_and_not s.status.overrun (v.getLsbD 16))
  rw [and_stickyMask]
  exact append_keep (bit s.isBusy) (append_keep (bit s.status.done) (append_keep 0#2
    (append_keep s.status.err.code (append_keep s.status.lastOp upper))))

/-- Settles O53: in either engine state the write is `writeStatus`, and the word changes at the two W1C bits alone. -/
theorem statusWriteClearsTheStickyBits : Obligations.StatusWriteClearsTheStickyBits :=
  fun s v => ⟨rfl, statusWord_writeStatus s v⟩

end Sys2Proof.Proofs
end

section
/-! SUPPORT. What DECODE leaves on each of its paths: the cleared frame of an error (R127, R130, R131, R139), the extracted
frame of a success (R132 to R138), and nothing else changed. -/

namespace Sys2Proof.Proofs

open Sys2Proof.Machine Sys2Proof.Laws

/-- DECODE's completion, from how its body ends (R113). -/
theorem exec_decode {s : State} {r : Result} (h : decodeBody s = r) : exec .decode s = .next (complete r) :=
  h ▸ rfl

/-- WARN_LEN compares FLEN with N + 5 (R129). -/
theorem warnLen_iff (l n : Nat) : warnLen l n = true ↔ l ≠ n + 5 := by
  simp only [warnLen, decide_eq_true_eq]
  omega

/-- WARN_LEN of a DECODE that ends in an error: 0 when the frame is too short for a byte count, else as R129 says (R139). -/
def errorWarnLen (s : State) : Bool := decide (5 ≤ s.frameLength) && warnLen s.frameLength s.byteCount

theorem errorWarnLen_iff (s : State) : errorWarnLen s = true ↔ 5 ≤ s.frameLength ∧ s.frameLength ≠ s.byteCount + 5 := by
  simp [errorWarnLen, warnLen_iff]

theorem errorWarnLen_of_lt {s : State} (h : s.frameLength < 5) : errorWarnLen s = false := by
  simp [errorWarnLen, h]

theorem errorWarnLen_of_le {s : State} (h : 5 ≤ s.frameLength) : errorWarnLen s = warnLen s.frameLength s.byteCount := by
  simp [errorWarnLen, h]

/-! Each path of DECODE, from its conditions (R211). -/

theorem decodeBody_tooShort {s : State} (h : s.frameLength < 5) :
    decodeBody s = raise .frameTooShort (s.clearFrame (errorWarnLen s)) := by
  rw [errorWarnLen_of_lt h]
  exact if_pos h

theorem decodeBody_odd {s : State} (h : 5 ≤ s.frameLength) (hodd : s.byteCount % 2 = 1) :
    decodeBody s = raise .oddByteCount (s.clearFrame (errorWarnLen s)) := by
  rw [errorWarnLen_of_le h]
  exact (if_neg h.not_gt).trans (if_pos hodd)

theorem decodeBody_dataShort {s : State} (h : 5 ≤ s.frameLength) (heven : s.byteCount % 2 = 0)
    (hshort : s.frameLength < 3 + s.byteCount) : decodeBody s = raise .dataShort (s.clearFrame (errorWarnLen s)) := by
  rw [errorWarnLen_of_le h]
  exact (if_neg h.not_gt).trans ((if_neg (by omega)).trans (if_pos hshort))

theorem decodeBody_success {s : State} (h : 5 ≤ s.frameLength) (heven : s.byteCount % 2 = 0)
    (hdata : 3 + s.byteCount ≤ s.frameLength) :
    decodeBody s = succeed ({ s with frame := s.decodedFrame } : State).clearMap :=
  (if_neg h.not_gt).trans ((if_neg (by omega)).trans (if_neg hdata.not_gt))

/-- Settles O24: the frame of the error path is the cleared one, with WARN_LEN 0 where the frame is too short. -/
theorem decodeErrorsClearTheFrame : Obligations.DecodeErrorsClearTheFrame := by
  refine ⟨by simp, fun s => ⟨.cleared (errorWarnLen s), ?fields, ?tooShort, ?odd, ?dataShort⟩⟩
  case fields => exact ⟨rfl, rfl, rfl, rfl, rfl, rfl, rfl, errorWarnLen_iff s, by simp⟩
  case tooShort => exact fun h => exec_decode (decodeBody_tooShort h)
  case odd => exact fun h hodd => exec_decode (decodeBody_odd h hodd)
  case dataShort => exact fun h heven hshort => exec_decode (decodeBody_dataShort h heven hshort)

/-- Settles O25: on success the frame state is `decodedFrame`, read field by field. -/
theorem decodeExtractsTheFrame : Obligations.DecodeExtractsTheFrame := fun s hlen heven hdata =>
  ⟨s.decodedFrame, exec_decode (decodeBody_success hlen heven hdata), rfl, rfl, rfl, decodedFrame0_regCount s, rfl, rfl, rfl,
    warnLen_iff _ _, decodedRegs_getElem s⟩

end Sys2Proof.Proofs
end

section
/-! SUPPORT. The frame that carries a register list, byte by byte, and its decoding (R143). -/

namespace Sys2Proof.Proofs

open Sys2Proof.Machine Sys2Proof.Laws

/-- The data bytes of a register list: each register big-endian (R70, R133). -/
def registerBytes (rs : List Half) : List Byte := rs.flatMap fun r => [r.extractLsb' 8 8, r.extractLsb' 0 8]

/-- Register i of a list stands at the data bytes 2i and 2i + 1. -/
theorem registerBytes_getElem? {rs : List Half} {i : Nat} {r : Half} (h : rs[i]? = some r) :
    (registerBytes rs)[2 * i]? = some (r.extractLsb' 8 8) ∧ (registerBytes rs)[2 * i + 1]? = some (r.extractLsb' 0 8) := by
  induction rs generalizing i with
  | nil => simp at h
  | cons x xs ih =>
    cases i with
    | zero =>
      obtain rfl : x = r := by simpa using h
      exact ⟨rfl, rfl⟩
    | succ i => exact ih h

/-- The data bytes of the frame of R143 stand from index 3 on. -/
theorem frameOf_getElem?_data (u f c0 c1 : Byte) {rs : List Half} {k : Nat} {b : Byte}
    (h : (registerBytes rs)[k]? = some b) : (frameOf u f rs c0 c1)[k + 3]? = some b :=
  have hlt : k < (registerBytes rs).length := (List.getElem?_eq_some_iff.mp h).1
  (List.getElem?_append_left hlt).trans h

/-- A state whose FB holds the frame of R143 holds register i of the list at its place (R133). -/
theorem wireReg_of_frameOf {u f c0 c1 : Byte} {rs : List Half} {s : State}
    (hfb : ∀ a b, (frameOf u f rs c0 c1)[a]? = some b → s.fbByte a = b) {i : Nat} {r : Half} (h : rs[i]? = some r) :
    s.wireReg i = r := by
  obtain ⟨hhi, hlo⟩ := registerBytes_getElem? h
  rw [State.wireReg, show 3 + 2 * i = 2 * i + 3 by omega, show 4 + 2 * i = 2 * i + 1 + 3 by omega,
    hfb _ _ (frameOf_getElem?_data u f c0 c1 hhi), hfb _ _ (frameOf_getElem?_data u f c0 c1 hlo)]
  exact BitVec.extractLsb'_append_extractLsb'

/-- Settles O26: the encoded byte count is 2R, so DECODE succeeds, and the bytes it takes register i from are the two
bytes of `rs[i]`. -/
theorem decodeReturnsTheEncodedRegisters : Obligations.DecodeReturnsTheEncodedRegisters := by
  intro u f c0 c1 rs s hrs hlen hfb
  have hcount : (s.fbByte 2).toNat = 2 * rs.length := by
    rw [hfb 2 _ rfl, BitVec.toNat_ofNat]
    omega
  obtain ⟨t, hexec, hunit, hfunc, -, hregCount, -, -, -, hwarn, hregs⟩ :=
    decodeExtractsTheFrame s (by omega) (by omega) (by omega)
  refine ⟨_, hexec, rfl, ?warn, hunit.trans (hfb 0 _ rfl), hfunc.trans (hfb 1 _ rfl), ?regCount, ?regs⟩
  case warn =>
    rw [← Bool.not_eq_true]
    exact fun h => hwarn.mp h (by omega)
  case regCount => exact hregCount.trans (by omega)
  case regs =>
    intro i hi r hr
    have hlt : i < rs.length := (List.getElem?_eq_some_iff.mp hr).1
    exact (hregs i hi).trans ((if_pos (by omega)).trans (wireReg_of_frameOf hfb hr))

end Sys2Proof.Proofs
end

section
/-! SUPPORT. The bytes of FB that DECODE reads (R141): two states that agree on them end DECODE alike. -/

namespace Sys2Proof.Proofs

open Sys2Proof.Machine Sys2Proof.Laws

/-! The bytes that DECODE reads, once the frame is long enough. -/

theorem decodeReads_header {s : State} (hlen : 5 ≤ s.frameLength) {a : Nat} (ha : a < 3) : s.decodeReads a :=
  ⟨ha.trans_le (by omega : 3 ≤ s.frameLength), .inl ha⟩

theorem decodeReads_data {s : State} (hdata : 3 + s.byteCount ≤ s.frameLength) {a : Nat} (hlo : 3 ≤ a)
    (hhi : a < 3 + s.byteCount) : s.decodeReads a :=
  ⟨hhi.trans_le hdata, .inr (.inl ⟨hlo, hhi⟩)⟩

theorem decodeReads_crcFirst {s : State} (hlen : 5 ≤ s.frameLength) : s.decodeReads (s.frameLength - 2) :=
  ⟨(by omega : s.frameLength - 2 < s.frameLength), .inr (.inr (.inl (by omega : s.frameLength - 2 + 2 = s.frameLength)))⟩

theorem decodeReads_crcSecond {s : State} (hlen : 5 ≤ s.frameLength) : s.decodeReads (s.frameLength - 1) :=
  ⟨(by omega : s.frameLength - 1 < s.frameLength), .inr (.inr (.inr (by omega : s.frameLength - 1 + 1 = s.frameLength)))⟩

/-! Agreement on the bytes that DECODE reads. -/

section Agreement

variable {s t : State} (hflen : s.frameLength = t.frameLength) (hfb : ∀ a, s.decodeReads a → s.fbByte a = t.fbByte a)
  (hlen : 5 ≤ s.frameLength)

include hfb hlen in
theorem byteCount_eq_of_agree : s.byteCount = t.byteCount :=
  congrArg BitVec.toNat (hfb 2 (decodeReads_header hlen (by decide)))

include hfb in
theorem wireReg_eq_of_agree (hdata : 3 + s.byteCount ≤ s.frameLength) {i : Nat} (hi : i < s.byteCount / 2) :
    s.wireReg i = t.wireReg i := by
  rw [State.wireReg, State.wireReg, hfb _ (decodeReads_data hdata (by omega) (by omega)),
    hfb _ (decodeReads_data hdata (by omega) (by omega))]

include hflen hfb hlen in
theorem wireCrc_eq_of_agree : s.wireCrc = t.wireCrc := by
  rw [State.wireCrc, State.wireCrc, hfb _ (decodeReads_crcFirst hlen), hfb _ (decodeReads_crcSecond hlen), hflen]

include hfb hlen in
theorem decodedFrame0_eq_of_agree : s.decodedFrame0 = t.decodedFrame0 := by
  have hheader (a : Nat) (ha : a < 3) : s.fbByte a = t.fbByte a := hfb a (decodeReads_header hlen ha)
  simp only [State.decodedFrame0, State.byteCount, hheader 0 (by decide), hheader 1 (by decide), hheader 2 (by decide)]

include hflen hfb hlen in
theorem decodedFrame1_eq_of_agree : s.decodedFrame1 = t.decodedFrame1 := by
  rw [State.decodedFrame1, State.decodedFrame1, wireCrc_eq_of_agree hflen hfb hlen, byteCount_eq_of_agree hfb hlen, hflen]

include hfb hlen in
theorem decodedRegs_eq_of_agree (hdata : 3 + s.byteCount ≤ s.frameLength) : s.decodedRegs = t.decodedRegs := by
  ext1 i hi
  rw [decodedRegs_getElem, decodedRegs_getElem, ← byteCount_eq_of_agree hfb hlen]
  split
  case isTrue h => exact wireReg_eq_of_agree hfb hdata h
  case isFalse => rfl

include hflen hfb hlen in
theorem decodedFrame_eq_of_agree (hdata : 3 + s.byteCount ≤ s.frameLength) : s.decodedFrame = t.decodedFrame := by
  rw [State.decodedFrame, State.decodedFrame, decodedFrame0_eq_of_agree hfb hlen, decodedFrame1_eq_of_agree hflen hfb hlen,
    decodedRegs_eq_of_agree hfb hlen hdata]

end Agreement

/-- DECODE leaves the same frame state and error on two states that agree on FLEN and, unless the frame is too short, on the
bytes that DECODE reads (R141). -/
theorem decodeBody_eq_of_agree {s t : State} (hflen : s.frameLength = t.frameLength)
    (hfb : 5 ≤ s.frameLength → ∀ a, s.decodeReads a → s.fbByte a = t.fbByte a) :
    (decodeBody s).1.frame = (decodeBody t).1.frame ∧ (decodeBody s).2 = (decodeBody t).2 := by
  obtain ⟨hlen, hs⟩ | ⟨hlen, hodd, hs⟩ | ⟨hlen, heven, hdata, hs⟩ | ⟨hlen, heven, hdata, hs⟩ := decodeBody_cases s
  · rw [hs, decodeBody_tooShort (hflen ▸ hlen), errorWarnLen_of_lt (hflen ▸ hlen)]
    exact ⟨rfl, rfl⟩
  all_goals
    have hfb := hfb hlen
    have hcount := byteCount_eq_of_agree hfb hlen
    have hlen' := hflen ▸ hlen
  · rw [hs, decodeBody_odd hlen' (hcount ▸ hodd), errorWarnLen_of_le hlen', hflen, hcount]
    exact ⟨rfl, rfl⟩
  · rw [hs, decodeBody_dataShort hlen' (hcount ▸ heven) (hflen ▸ hcount ▸ hdata), errorWarnLen_of_le hlen', hflen, hcount]
    exact ⟨rfl, rfl⟩
  · rw [hs, decodeBody_success hlen' (hcount ▸ heven) (hflen ▸ hcount ▸ hdata)]
    exact ⟨decodedFrame_eq_of_agree hflen hfb hlen hdata, rfl⟩

/-- Settles O27: DECODE always clears the map state, and the agreement fixes its frame state and its error. -/
theorem decodeReadsOnlyItsSlice : Obligations.DecodeReadsOnlyItsSlice := by
  intro s t s' t' hflen hfb hs ht
  obtain rfl := Host.Outcome.next.inj hs
  obtain rfl := Host.Outcome.next.inj ht
  obtain ⟨hframe, herr⟩ := decodeBody_eq_of_agree (congrArg BitVec.toNat hflen) hfb
  exact ⟨hframe, (commandBody_decode_mapping s).trans (commandBody_decode_mapping t).symm, herr⟩

end Sys2Proof.Proofs
end

section
/-! SUPPORT. MAP's paths without a list to run: no frame, no unit, no function, a list past the end of DM (R148 to R151),
and what MAP reads. -/

namespace Sys2Proof.Proofs

open Sys2Proof.Machine Sys2Proof.Laws

/-- MAP's completion, from how its body ends (R113). -/
theorem exec_map {s : State} {r : Result} (h : mapBody s = r) : exec .map s = .next (complete r) :=
  h ▸ rfl

/-! Each path of MAP, from its conditions (R146, R212). -/

theorem mapBody_noFrame {s : State} (hvalid : s.frame.frame0.valid = false) : mapBody s = raise .noFrame s.clearMap :=
  if_neg (Bool.eq_false_iff.mp hvalid)

section UnitLookup

variable {s : State} (hvalid : s.frame.frame0.valid = true)
include hvalid

theorem mapBody_unknownUnit (hunit : s.tables.ut[s.frame.frame0.unitId.toNat].valid = false) :
    mapBody s = succeed s.clearMap :=
  (if_pos hvalid).trans (if_neg (Bool.eq_false_iff.mp hunit))

variable (hunit : s.tables.ut[s.frame.frame0.unitId.toNat].valid = true)
include hunit

theorem mapBody_unknownFunction (hmiss : s.lookupFunction s.frame.frame0.unitId s.frame.frame0.func = none) :
    mapBody s = succeed { s with mapping := .ofDevice s.tables.ut[s.frame.frame0.unitId.toNat].deviceId } := by
  simp only [mapBody, hvalid, hunit, hmiss, if_true]

theorem mapBody_function {e : FuncEntry} (hhit : s.lookupFunction s.frame.frame0.unitId s.frame.frame0.func = some e) :
    mapBody s = mapList s.tables.ut[s.frame.frame0.unitId.toNat].deviceId e s := by
  simp only [mapBody, hvalid, hunit, hhit, if_true]

end UnitLookup

theorem mapList_pastEnd {e : FuncEntry} (hout : 256 < e.base.toNat + e.count.toNat) (dev : Byte) (s : State) :
    mapList dev e s = raise .cfgErr s.clearMap :=
  if_pos hout

/-- An empty list stands anywhere in DM, and MAP counts no slot after it. -/
theorem mapList_empty {e : FuncEntry} (hcount : e.count = 0) (dev : Byte) (s : State) :
    mapList dev e s = succeed (s.startList dev e).finishList := by
  have hlist : ¬256 < e.base.toNat + e.count.toNat := by
    have hbase := e.base.isLt
    have hzero : e.count.toNat = 0 := congrArg BitVec.toNat hcount
    omega
  rw [mapList, if_neg hlist, hcount]
  rfl

/-- Settles O28: the first check of MAP fails. -/
theorem mapWithoutAFrameRaisesNoFrame : Obligations.MapWithoutAFrameRaisesNoFrame := fun _ hvalid =>
  exec_map (mapBody_noFrame hvalid)

/-- Settles O29: the frame is valid and the unit lookup misses. -/
theorem mapOfAnUnknownUnitIsEmpty : Obligations.MapOfAnUnknownUnitIsEmpty := fun _ hvalid hunit =>
  exec_map (mapBody_unknownUnit hvalid hunit)

/-- Settles O30: the unit lookup hits and the function lookup misses. -/
theorem mapOfAnUnknownFunctionNamesTheDevice : Obligations.MapOfAnUnknownFunctionNamesTheDevice :=
  fun s hvalid hunit hmiss => exec_map (mapBody_unknownFunction hvalid hunit (lookup_of_functionMiss s hmiss))

/-- Settles O31: after both hits the range check comes before the loop; an empty list passes it and leaves the cleared
slots, of which none counts. -/
theorem mapOfAListPastTheEndRaisesCfgErr : Obligations.MapOfAListPastTheEndRaisesCfgErr := by
  intro s k hvalid hunit hhit
  have hbody := mapBody_function hvalid hunit (lookup_of_leastHit s k hhit)
  refine ⟨fun hout => exec_map (hbody.trans (mapList_pastEnd hout _ s)), fun hcount => ?_⟩
  rw [exec_map (hbody.trans (mapList_empty hcount _ s)), ← countValid_cleared]
  rfl

end Sys2Proof.Proofs
end

section
/-! SUPPORT. What MAP leaves after a list in range: the last store of each slot, the number of slots stored, and both from
the frame and the configuration alone (R147, R158, R159). -/

namespace Sys2Proof.Proofs

open Sys2Proof.Machine Sys2Proof.Laws

/-- What the definitions of an entry's list store, in list order (R152, R158). -/
def listStores (e : FuncEntry) (s : State) : List (Byte × Word × Tag) :=
  (s.listEntries e.base.toNat e.count.toNat).filterMap s.storeOf

/-- The map state that MAP's loop makes with some stores, NVALID not counted yet. -/
def storedMapping (dev : Byte) (xs : List (Byte × Word × Tag)) : Mapping :=
  xs.foldl storeInto { Mapping.cleared with info := ⟨dev, true, true, 0⟩ }

/-- The map state that MAP commits after some stores (R159, R160). -/
def listMapping (dev : Byte) (xs : List (Byte × Word × Tag)) : Mapping :=
  let m := storedMapping dev xs
  { m with info := { m.info with nvalid := countValid m.slotInfo } }

/-- MAP over a list in range commits the list's stores and nothing else. -/
theorem complete_mapList {e : FuncEntry} (hlist : e.base.toNat + e.count.toNat ≤ 256) (dev : Byte) (s : State) :
    complete (mapList dev e s) = State.completed .ok { s with mapping := listMapping dev (listStores e s) } := by
  rw [mapList_eq dev e s hlist]
  rfl

theorem exec_map_list {s : State} {k : Fin 64} (hvalid : s.frame.frame0.valid = true)
    (hunit : s.tables.ut[s.frame.frame0.unitId.toNat].valid = true) (hhit : s.leastHit k)
    (hlist : s.tables.mt[k].base.toNat + s.tables.mt[k].count.toNat ≤ 256) :
    exec .map s = .next (State.completed .ok { s with
      mapping := listMapping s.tables.ut[s.frame.frame0.unitId.toNat].deviceId (listStores s.tables.mt[k] s) }) := by
  rw [exec_map (mapBody_function hvalid hunit (lookup_of_leastHit s k hhit)), complete_mapList hlist]

theorem storedMapping_info (dev : Byte) (xs : List (Byte × Word × Tag)) :
    (storedMapping dev xs).info = ⟨dev, true, true, 0⟩ := (foldl_storeInto xs _ 0).1

/-- A slot that some store names holds the last one (R158). -/
theorem storedMapping_stored {dev : Byte} {xs : List (Byte × Word × Tag)} {slot k : Byte} {v : Word} {tag : Tag}
    (h : xs.reverse.find? (fun x => x.1 == slot) = some (k, v, tag)) :
    (storedMapping dev xs).value[slot.toNat] = v ∧ (storedMapping dev xs).slotInfo[slot.toNat] = ⟨true, tag⟩ := by
  have hslot := (foldl_storeInto xs { Mapping.cleared with info := ⟨dev, true, true, 0⟩ } slot).2
  rw [h] at hslot
  exact hslot

/-- A slot that no store names is as MAP cleared it (R147, R158). -/
theorem storedMapping_unstored {dev : Byte} {xs : List (Byte × Word × Tag)} {slot : Byte}
    (h : xs.reverse.find? (fun x => x.1 == slot) = none) :
    (storedMapping dev xs).value[slot.toNat] = 0 ∧ (storedMapping dev xs).slotInfo[slot.toNat] = ⟨false, .int⟩ := by
  have hslot := (foldl_storeInto xs { Mapping.cleared with info := ⟨dev, true, true, 0⟩ } slot).2
  rw [h] at hslot
  exact ⟨hslot.1.trans (getElem_fill ..), hslot.2.trans (getElem_fill ..)⟩

/-- Settles O32: MAP commits the stores of the list, made in list order over the cleared slots. -/
theorem mapLeavesTheLastStoreOfEachSlot : Obligations.MapLeavesTheLastStoreOfEachSlot := by
  intro s k hvalid hunit hhit hlist
  have hinfo := storedMapping_info s.tables.ut[s.frame.frame0.unitId.toNat].deviceId (listStores s.tables.mt[k] s)
  refine ⟨_, exec_map_list hvalid hunit hhit hlist, congrArg MapInfo.deviceId hinfo, congrArg MapInfo.devValid hinfo,
    congrArg MapInfo.funcHit hinfo, fun slot => ?_⟩
  split
  next hlast => exact storedMapping_stored hlast
  next hlast => exact storedMapping_unstored hlast

/-! NVALID. -/

/-- Counting along a file is counting its indices. -/
theorem countP_toList {α : Type} {n : Nat} (xs : Vector α n) (p : α → Bool) :
    xs.toList.countP p = (Finset.univ.filter fun i : Fin n => p xs[i] = true).card := by
  have hlist : xs.toList = (List.finRange n).map fun i => xs[i] := List.ext_getElem (by simp) (by simp)
  rw [hlist, List.countP_map, ← List.toFinset_finRange, (List.nodup_finRange n).card_eq_countP]
  congr 1
  funext i
  simp

/-- NVALID's 9 bits hold the number of valid slots, which is 256 at most (R29). -/
theorem countValid_toNat (info : Vector SlotInfo 256) :
    (countValid info).toNat = (Finset.univ.filter fun i : Fin 256 => info[i].valid = true).card := by
  rw [countValid, BitVec.toNat_ofNat, countP_toList, Nat.mod_eq_of_lt]
  exact (card_finset_fin_le _).trans_lt (by decide)

/-- The valid slots are those that some store names. -/
theorem storedMapping_valid_iff (dev : Byte) (xs : List (Byte × Word × Tag)) (slot : Byte) :
    (storedMapping dev xs).slotInfo[slot.toNat].valid = true ↔ slot ∈ (xs.map fun x => x.1).toFinset := by
  rw [List.mem_toFinset, List.mem_map]
  cases hlast : xs.reverse.find? fun x => x.1 == slot with
  | some x =>
    have hmem : x ∈ xs := List.mem_reverse.mp (List.mem_of_find?_eq_some hlast)
    have hslot : x.1 = slot := by simpa using List.find?_some hlast
    rw [(storedMapping_stored hlast).2]
    exact ⟨fun _ => ⟨x, hmem, hslot⟩, fun _ => rfl⟩
  | none =>
    have hnone : ∀ x ∈ xs, x.1 ≠ slot := by simpa using hlast
    rw [(storedMapping_unstored hlast).2]
    exact ⟨nofun, fun ⟨x, hmem, hslot⟩ => absurd hslot (hnone x hmem)⟩

/-- Settles O33: NVALID counts the valid slots, and a slot's 8 bits number the slots. -/
theorem nvalidCountsDistinctSlots : Obligations.NvalidCountsDistinctSlots := by
  intro s t k hvalid hunit hhit hlist hexec
  obtain rfl := Host.Outcome.next.inj ((exec_map_list hvalid hunit hhit hlist).symm.trans hexec)
  refine (countValid_toNat _).trans (Finset.card_equiv (BitVec.equivFin (m := 8)).toEquiv fun slot => ?_).symm
  rw [← storedMapping_valid_iff, Finset.mem_filter]
  exact ⟨fun h => ⟨Finset.mem_univ _, h⟩, And.right⟩

/-! What MAP reads. -/

/-- A state with its frame and its configuration taken from another. -/
def withReadsOf (s t : State) : State := { t with frame := s.frame, tables := s.tables }

theorem withReadsOf_eq {s t : State} (hframe : s.frame = t.frame) (htables : s.tables = t.tables) : withReadsOf s t = t := by
  rw [withReadsOf, hframe, htables]

/-- On each of its paths MAP takes its map state and its error from the frame and the configuration (R147). -/
theorem complete_mapBody_withReadsOf (s t : State) :
    (complete (mapBody s)).mapping = (complete (mapBody (withReadsOf s t))).mapping ∧
      (complete (mapBody s)).status.err = (complete (mapBody (withReadsOf s t))).status.err := by
  obtain ⟨hvalid, -⟩ | ⟨hvalid, hunit, -⟩ | ⟨hvalid, hunit, hmiss, -⟩ | ⟨hvalid, hunit, e, hhit, hlist, -⟩ |
    ⟨hvalid, hunit, e, hhit, hlist, -⟩ := mapBody_cases s
  · rw [mapBody_noFrame hvalid, mapBody_noFrame (s := withReadsOf s t) hvalid]
    exact ⟨rfl, rfl⟩
  · rw [mapBody_unknownUnit hvalid hunit, mapBody_unknownUnit (s := withReadsOf s t) hvalid hunit]
    exact ⟨rfl, rfl⟩
  · rw [mapBody_unknownFunction hvalid hunit hmiss, mapBody_unknownFunction (s := withReadsOf s t) hvalid hunit hmiss]
    exact ⟨rfl, rfl⟩
  · rw [mapBody_function hvalid hunit hhit, mapBody_function (s := withReadsOf s t) hvalid hunit hhit,
      mapList_pastEnd hlist, mapList_pastEnd hlist]
    exact ⟨rfl, rfl⟩
  · rw [mapBody_function hvalid hunit hhit, mapBody_function (s := withReadsOf s t) hvalid hunit hhit,
      complete_mapList hlist, complete_mapList hlist]
    exact ⟨rfl, rfl⟩

/-- Settles O34: a state with the frame and the configuration of another is read alike. -/
theorem mapReadsOnlyFrameAndConfiguration : Obligations.MapReadsOnlyFrameAndConfiguration := by
  intro s t s' t' hframe htables hs ht
  obtain rfl := Host.Outcome.next.inj hs
  obtain rfl := Host.Outcome.next.inj ht
  have hreads := complete_mapBody_withReadsOf s t
  rwa [withReadsOf_eq hframe htables] at hreads

/-! DECMAP. -/

/-- Of STATUS and ENG_STATE a completion keeps the sticky flags alone (R113). -/
theorem complete_patch_of_sticky {st : Status} {r : Result} (hoverrun : st.overrun = r.1.status.overrun)
    (hbusyWr : st.busyWr = r.1.status.busyWr) (es : EngState) : complete (patch st es r.1, r.2) = complete r := by
  simp [complete, patch, hoverrun, hbusyWr]

/-- The completion between DECODE and a MAP of its own writes nothing that MAP reads or that MAP's completion keeps. -/
theorem complete_mapBody_complete (r : Result) : complete (mapBody (complete r)) = complete (mapBody r.1) := by
  obtain ⟨m, c, hbody⟩ := mapBody_frame r.1
  calc complete (mapBody (complete r))
      = complete (mapBody (patch (complete r).status .idle r.1)) :=
        complete_mapBody_dcur none (patch (complete r).status .idle r.1)
    _ = complete (patch (complete r).status .idle (mapBody r.1).1, (mapBody r.1).2) := by rw [mapBody_patch]
    _ = complete (mapBody r.1) := complete_patch_of_sticky (by simp [hbody]) (by simp [hbody]) .idle

/-- Settles O35: DECMAP's body is DECODE's where that has an error, and else MAP's on what DECODE leaves. -/
theorem decmapIsDecodeThenMap : Obligations.DecmapIsDecodeThenMap := by
  intro s
  have hdecmap : exec .decmap s = .next (complete (decmapBody s)) := rfl
  refine ⟨complete (decodeBody s), complete (mapBody (complete (decodeBody s))), rfl, rfl, ?_, ?_⟩
  · intro (herr : (decodeBody s).2 ≠ .ok)
    rw [hdecmap, decmapBody_eq, if_neg herr]
  · intro (hok : (decodeBody s).2 = .ok)
    rw [hdecmap, decmapBody_eq, if_pos hok, complete_mapBody_complete]

end Sys2Proof.Proofs
end

section
/-! SUPPORT. The definition operations on both sides of their range checks (R153 to R157). -/

namespace Sys2Proof.Proofs

open Sys2Proof.Machine Sys2Proof.Laws

/-- A register inside the file (R27). -/
theorem reg_eq_getElem (s : State) {i : Nat} (h : i < 128) : s.reg i = s.frame.regs[i] := by
  rw [State.reg, Vector.getElem?_eq_getElem h, Option.getD_some]

theorem mapInteger_stores {s : State} {d : DefOperands} (h : d.index.toNat < 128) (hrange : d.index.toNat < s.regCount)
    (tag : Tag) :
    (mapInteger tag d s).advance = s.stored d.slot (fxscale s.frame.regs[d.index.toNat] d.mult d.shift) tag := by
  rw [mapInteger_advance, if_neg hrange.not_ge, reg_eq_getElem s h]
  rfl

theorem mapInteger_skips {s : State} {d : DefOperands} (hrange : s.regCount ≤ d.index.toNat) (tag : Tag) :
    (mapInteger tag d s).advance = s.skipped := by
  rw [mapInteger_advance, if_pos hrange]
  rfl

/-- Settles O36: U16 and RAW are the one integer definition with their TAG. -/
theorem integerDefinitionsStoreTheScaledRegister : Obligations.IntegerDefinitionsStoreTheScaledRegister :=
  fun _ _ _ _ =>
    ⟨fun h hrange => ⟨congrArg _ (mapInteger_stores h hrange .int), congrArg _ (mapInteger_stores h hrange .raw)⟩,
      fun hrange => ⟨congrArg _ (mapInteger_skips hrange .int), congrArg _ (mapInteger_skips hrange .raw)⟩⟩

theorem mapFloat_stores {s : State} {d : DefOperands} (h : d.index.toNat + 1 < 128) (hrange : d.index.toNat + 1 < s.regCount)
    {wo : BitVec 3} {x : Word} (hx : f32recon s.frame.regs[d.index.toNat] s.frame.regs[d.index.toNat + 1] wo = x) :
    (mapFloat wo d s).advance = s.stored d.slot (fmul32 x d.hi) .f32 := by
  rw [mapFloat_eq, if_neg hrange.not_ge, reg_eq_getElem s (by omega), reg_eq_getElem s h, hx]
  rfl

theorem mapFloat_skips {s : State} {d : DefOperands} (hrange : s.regCount ≤ d.index.toNat + 1) (wo : BitVec 3) :
    (mapFloat wo d s).advance = s.skipped := by
  rw [mapFloat_eq, if_pos hrange]
  rfl

/-- A reserved word order is read as ABCD (R176). -/
theorem f32recon_reserved {wo : BitVec 3} (h : wo.getLsbD 2 = true) (hi lo : Half) :
    f32recon hi lo wo = f32recon hi lo 0b000#3 := by
  have hne : wo ≠ 0b001#3 ∧ wo ≠ 0b010#3 ∧ wo ≠ 0b011#3 := by
    revert wo
    decide
  simp [f32recon, hne]

/-- Settles O37: each row is the one float definition in its byte order. -/
theorem floatDefinitionsStoreTheScaledFloat : Obligations.FloatDefinitionsStoreTheScaledFloat := by
  refine fun s wo d => ⟨fun h hrange => ⟨?_, ?_, ?_, ?_, fun hwf => ?_⟩, fun hrange => ?_⟩
  · exact congrArg _ (mapFloat_stores (wo := 0b000#3) h hrange rfl)
  · exact congrArg _ (mapFloat_stores (wo := 0b001#3) h hrange rfl)
  · exact congrArg _ (mapFloat_stores (wo := 0b010#3) h hrange rfl)
  · exact congrArg _ (mapFloat_stores (wo := 0b011#3) h hrange rfl)
  · exact congrArg _ (mapFloat_stores h hrange (f32recon_reserved hwf _ _))
  · have hskip (order : BitVec 3) : (Host.Outcome.next (mapFloat order d s).advance : Host.Outcome State Fault Refusal) =
        .next s.skipped := congrArg _ (mapFloat_skips hrange order)
    exact ⟨hskip 0b000#3, hskip 0b001#3, hskip 0b010#3, hskip 0b011#3, hskip wo⟩

/-- A DM entry with INDEX past the registers stores nothing, whatever its DTYPE (R153). -/
theorem storeOf_outOfRange {s : State} {e : DefEntry}
    (hrange : s.frame.frame0.regCount.toNat ≤ (e.lo.extractLsb' 0 8).toNat) : s.storeOf e = none :=
  if_pos hrange

theorem exec_decodeDefinition_outOfRange {s : State} {lo hi : Word}
    (hrange : s.frame.frame0.regCount.toNat ≤ (lo.extractLsb' 0 8).toNat) :
    exec (decodeDefinition lo hi) s = .next s.skipped := by
  rw [exec_definition _ s (decodeDefinition_format lo hi), runDefinition_decode s ⟨lo, hi⟩, storeOf_outOfRange hrange]
  rfl

/-- Settles O38: INDEX is checked before DTYPE, and no INDEX is below a REG_COUNT of 0. -/
theorem outOfRangeDefinitionsAreSkipped : Obligations.OutOfRangeDefinitionsAreSkipped := by
  rintro s _ lo hi rfl
  refine ⟨exec_decodeDefinition_outOfRange, fun hempty => exec_decodeDefinition_outOfRange ?_⟩
  rw [hempty]
  exact Nat.zero_le _

end Sys2Proof.Proofs
end

section
/-! SUPPORT. The reconstructor as 16-bit words and their byte swaps (R172 to R177). -/

namespace Sys2Proof.Proofs

open Sys2Proof.Machine Sys2Proof.Laws

theorem append_bytes_of_half (w : Half) : (w.extractLsb' 8 8 ++ w.extractLsb' 0 8 : Half) = w :=
  BitVec.extractLsb'_append_extractLsb'

/-- Four bytes in a row are two words in a row. -/
theorem append_four_bytes (a b c d : Byte) : (a ++ b ++ c ++ d : Word) = (a ++ b) ++ (c ++ d) :=
  BitVec.append_assoc

theorem f32recon_abcd (hi lo : Half) : f32recon hi lo 0b000 = hi ++ lo :=
  (append_four_bytes ..).trans (congrArg₂ _ (append_bytes_of_half hi) (append_bytes_of_half lo))

theorem f32recon_badc (hi lo : Half) : f32recon hi lo 0b001 = bswap16 hi ++ bswap16 lo := append_four_bytes ..

theorem f32recon_cdab (hi lo : Half) : f32recon hi lo 0b010 = lo ++ hi := f32recon_abcd lo hi

theorem f32recon_dcba (hi lo : Half) : f32recon hi lo 0b011 = bswap16 lo ++ bswap16 hi := f32recon_badc lo hi

/-- Settles O39: one lemma for each word order, a reserved one being ABCD. -/
theorem reconstructionFollowsTheWordOrder : Obligations.ReconstructionFollowsTheWordOrder :=
  ⟨fun _ => rfl, fun hi lo => ⟨f32recon_abcd hi lo, f32recon_badc hi lo, f32recon_cdab hi lo, f32recon_dcba hi lo,
    fun _ hwo => (f32recon_reserved hwo hi lo).trans (f32recon_abcd hi lo)⟩⟩

/-- A word order is reserved or one of the four that R172 to R175 name. -/
theorem wordOrder_cases (wo : BitVec 3) :
    wo.getLsbD 2 = true ∨ wo = 0b000#3 ∨ wo = 0b001#3 ∨ wo = 0b010#3 ∨ wo = 0b011#3 := by
  revert wo
  decide

/-- Settles O40, by the word orders: in a reserved one neither path swaps, and in the others WS and BS are bits 1 and 0. -/
theorem reconstructionIsTwoSwapPaths : Obligations.ReconstructionIsTwoSwapPaths := by
  intro hi lo wo
  obtain hreserved | rfl | rfl | rfl | rfl := wordOrder_cases wo
  · have habcd := (f32recon_reserved hreserved hi lo).trans (f32recon_abcd hi lo)
    simp only [hreserved, Bool.not_true, Bool.and_false, Bool.false_eq_true, if_false]
    exact ⟨habcd, habcd⟩
  · exact ⟨f32recon_abcd hi lo, f32recon_abcd hi lo⟩
  · exact ⟨f32recon_badc hi lo, f32recon_badc hi lo⟩
  · exact ⟨f32recon_cdab hi lo, f32recon_cdab hi lo⟩
  · exact ⟨f32recon_dcba hi lo, f32recon_dcba hi lo⟩

/-- Settles O21: the command's body is the reconstruction. -/
theorem f32CommandWritesTheReconstruction : Obligations.F32CommandWritesTheReconstruction :=
  fun s => exec_command .f32 s rfl

end Sys2Proof.Proofs
end

section
/-! SUPPORT. The classes of R13 and the multiplier's cases before the rounding (R180 to R184). -/

namespace Sys2Proof.Proofs

open Sys2Proof.Machine Sys2Proof.Laws

/-! The classes, at the fields of a word and at its magnitude. -/

theorem isNaN_iff (x : Word) : isNaN x = true ↔ x.extractLsb' 23 8 = 0xFF#8 ∧ x.extractLsb' 0 23 ≠ 0#23 := by
  rw [isNaN, Bool.and_eq_true, beq_iff_eq, bne_iff_ne]
  exact and_congr (BitVec.toNat_inj (y := 0xFF#8)) (not_congr (BitVec.toNat_inj (y := 0#23)))

theorem isInf_iff (x : Word) : isInf x = true ↔ x.extractLsb' 23 8 = 0xFF#8 ∧ x.extractLsb' 0 23 = 0#23 := by
  rw [isInf, Bool.and_eq_true, beq_iff_eq, beq_iff_eq]
  exact and_congr (BitVec.toNat_inj (y := 0xFF#8)) (BitVec.toNat_inj (y := 0#23))

theorem isZero_iff (x : Word) : isZero x = true ↔ x.extractLsb' 0 31 = 0#31 := beq_iff_eq

theorem isFiniteNonzero_iff (x : Word) :
    isFiniteNonzero x = true ↔ x.extractLsb' 23 8 ≠ 0xFF#8 ∧ x.extractLsb' 0 31 ≠ 0#31 := by
  rw [isFiniteNonzero, Bool.and_eq_true, Bool.and_eq_true, Bool.not_eq_true', Bool.not_eq_true', Bool.not_eq_true',
    ← Bool.not_eq_true, ← Bool.not_eq_true, ← Bool.not_eq_true, isNaN_iff, isInf_iff, isZero_iff]
  tauto

theorem isFiniteNonzero_iff_mag (x : Word) : isFiniteNonzero x = true ↔ 0 < f32Mag x ∧ f32Mag x < f32InfBits := by
  simp only [isFiniteNonzero, isNaN_mag, isInf_mag, isZero_mag, Bool.and_eq_true, Bool.not_eq_true', decide_eq_false_iff_not]
  omega

theorem f32InfBits_pos : 0 < f32InfBits := by decide

/-- A word is its sign and the 31 bits below it. -/
theorem f32Pack_sign_mag (x : Word) : f32Pack (f32Sign x) (f32Mag x) = x := by
  refine BitVec.eq_of_getLsbD_eq fun i hi => ?_
  rw [f32Pack, BitVec.getLsbD_append]
  split_ifs with hlow
  · rw [BitVec.getLsbD_ofNat, f32Mag, Nat.testBit_mod_two_pow, BitVec.testBit_toNat, decide_eq_true hlow, Bool.true_and,
      Bool.true_and]
  · obtain rfl : i = 31 := by omega
    simp [bit, f32Sign]

theorem f32Pack_infinity (s : Bool) : f32Pack s f32InfBits = BitVec.ofBool s ++ 0xFF#8 ++ 0#23 := by
  revert s
  decide

/-! The cases. Where x by 1.0 falls in one of them, the bypass gives the word of the case. -/

/-- The bypass is the first test (R180). -/
theorem fmul32_one (x : Word) : fmul32 x f32One = x := rfl

theorem fmul32_nan_left {x y : Word} (hone : y ≠ f32One) (hx : isNaN x = true) : fmul32 x y = quiet x := by
  simp [fmul32, hone, hx]

theorem fmul32_nan_right {x y : Word} (hone : y ≠ f32One) (hx : isNaN x = false) (hy : isNaN y = true) :
    fmul32 x y = quiet y := by
  simp [fmul32, hone, hx, hy]

/-- The rules for operands that are no NaN, read at the magnitudes (R182 to R185). -/
theorem fmul32_of_not_nan {x y : Word} (hone : y ≠ f32One) (hx : f32Mag x ≤ f32InfBits) (hy : f32Mag y ≤ f32InfBits) :
    fmul32 x y =
      if (f32Mag x = f32InfBits ∧ f32Mag y = 0) ∨ (f32Mag x = 0 ∧ f32Mag y = f32InfBits) then f32DefaultNaN
      else f32Pack (f32Sign x ^^ f32Sign y)
        (if f32Mag x = f32InfBits ∨ f32Mag y = f32InfBits then f32InfBits
        else if f32Mag x = 0 ∨ f32Mag y = 0 then 0 else f32MulBits x y) := by
  simp only [fmul32, if_neg hone, isNaN_mag, isInf_mag, isZero_mag, decide_eq_true_eq, if_neg hx.not_gt, if_neg hy.not_gt,
    Bool.and_eq_true, Bool.or_eq_true, apply_ite (f32Pack _)]

/-- The packed form of a product holds for every y once it holds where the bypass of R180 is not taken. -/
theorem fmul32_eq_pack {x y : Word} {b : Nat} (hone : y = f32One → f32Mag x = b)
    (hother : y ≠ f32One → fmul32 x y = f32Pack (f32Sign x ^^ f32Sign y) b) :
    fmul32 x y = f32Pack (f32Sign x ^^ f32Sign y) b := by
  by_cases hy : y = f32One
  · rw [hy, fmul32_one, ← hone hy]
    exact (Bool.xor_false (f32Sign x) ▸ f32Pack_sign_mag x).symm
  · exact hother hy

theorem fmul32_invalid {x y : Word} (h : (isInf x = true ∧ isZero y = true) ∨ (isZero x = true ∧ isInf y = true)) :
    fmul32 x y = f32DefaultNaN := by
  have hpos := f32InfBits_pos
  simp only [isInf_mag, isZero_mag, decide_eq_true_eq] at h
  have hone : y ≠ f32One := by
    rintro rfl
    have hfinite : 0 < f32Mag f32One ∧ f32Mag f32One < f32InfBits := by decide
    omega
  rw [fmul32_of_not_nan hone (by omega) (by omega), if_pos h]

theorem fmul32_infinite {x y : Word}
    (h : (isInf x = true ∧ isFiniteNonzero y = true) ∨ (isFiniteNonzero x = true ∧ isInf y = true)) :
    fmul32 x y = f32Pack (f32Sign x ^^ f32Sign y) f32InfBits := by
  have hpos := f32InfBits_pos
  simp only [isInf_mag, isFiniteNonzero_iff_mag, decide_eq_true_eq] at h
  refine fmul32_eq_pack (fun hone => ?_) fun hone => ?_
  · have hy : f32Mag y < f32InfBits := hone ▸ by decide
    omega
  · rw [fmul32_of_not_nan hone (by omega) (by omega), if_neg (by omega), if_pos (by omega)]

theorem fmul32_zero {x y : Word}
    (h : isZero x = true ∧ (isZero y = true ∨ isFiniteNonzero y = true) ∨ isZero y = true ∧ isFiniteNonzero x = true) :
    fmul32 x y = f32Pack (f32Sign x ^^ f32Sign y) 0 := by
  have hpos := f32InfBits_pos
  simp only [isZero_mag, isFiniteNonzero_iff_mag, decide_eq_true_eq] at h
  refine fmul32_eq_pack (fun hone => ?_) fun hone => ?_
  · have hy : 0 < f32Mag y := hone ▸ by decide
    omega
  · rw [fmul32_of_not_nan hone (by omega) (by omega), if_neg (by omega), if_neg (by omega), if_pos (by omega)]

/-- Settles O43: the bypass of R180 is taken before any other case. -/
theorem multiplicationByOneReturnsTheOperand : Obligations.MultiplicationByOneReturnsTheOperand := fmul32_one

/-- Settles O44: each clause is the multiplier's case of that name. -/
theorem multiplierSpecialCases : Obligations.MultiplierSpecialCases :=
  ⟨fun x => ⟨isNaN_iff x, isInf_iff x, isZero_iff x, isFiniteNonzero_iff x⟩, fun _ _ =>
    ⟨fmul32_nan_left, fmul32_nan_right, fmul32_invalid, fun h => (fmul32_infinite h).trans (f32Pack_infinity _), fmul32_zero⟩⟩

/-- Settles O23: the command's body is the product, and the corner cases are those of R180 to R182. -/
theorem fmulCommandWritesTheProduct : Obligations.FmulCommandWritesTheProduct :=
  ⟨fun s => exec_command .fmul s rfl, fmul32_one, fmul32_nan_left (by decide) (by decide),
    fun _ _ hx hy => fmul32_invalid (.inl ⟨hx, hy⟩)⟩

end Sys2Proof.Proofs
end

section
/-! SUPPORT. The multiplier on finite nonzero operands (R185, R186): the magnitude nearest to the product of the operands'
magnitudes, below the sign of the product. -/

namespace Sys2Proof.Proofs

open Sys2Proof.Machine Sys2Proof.Laws

/-! The values of magnitudes: they rise strictly, and the two on either side of the overflow bound. -/

theorem magValue_succ (b : Nat) : ∃ q, magValue (b + 1) = magValue b + 2 ^ q := by
  obtain ⟨q, n, rfl, hn, hq⟩ : ∃ q n, b = q * 2 ^ 23 + n ∧ n < 2 ^ 24 ∧ (q = 0 ∨ 2 ^ 23 ≤ n) :=
    ⟨b / 2 ^ 23 - 1, b - (b / 2 ^ 23 - 1) * 2 ^ 23, by omega, by omega, by omega⟩
  refine ⟨q, ?_⟩
  rw [Nat.add_assoc, magValue_scaled q n hn.le hq, magValue_scaled q (n + 1) hn (by omega), Nat.succ_mul]

theorem magValue_strictMono : StrictMono magValue := strictMono_nat_of_lt_succ fun b => by
  obtain ⟨q, h⟩ := magValue_succ b
  rw [h]
  exact Nat.lt_add_of_pos_right (Nat.two_pow_pos q)

theorem magValue_pos {b : Nat} (h : 0 < b) : 0 < magValue b := magValue_strictMono h

theorem magValue_infinity : magValue f32InfBits = 2 ^ 24 * 2 ^ 253 := magValue_scaled 253 (2 ^ 24) le_rfl (by norm_num)

theorem magValue_maxFinite : magValue 0x7F7FFFFF = (2 ^ 24 - 1) * 2 ^ 253 :=
  magValue_scaled 253 (2 ^ 24 - 1) (by norm_num) (by norm_num)

theorem magValue_one : magValue (f32Mag f32One) = 2 ^ 149 :=
  (magValue_scaled 126 (2 ^ 23) (by norm_num) (by norm_num)).trans (pow_add 2 23 126).symm

/-- A magnitude is its significand in units of 2^(scale − 150), subnormal or not (R185). -/
theorem magValue_mag (x : Word) : magValue (f32Mag x) = f32Significand x * 2 ^ (f32Scale x - 1) := by
  unfold magValue f32Significand f32Scale
  rw [← f32Exponent_mag, ← f32Fraction_mag]
  split_ifs
  · exact (Nat.mul_one _).symm
  · rfl

theorem f32Scale_pos (x : Word) : 1 ≤ f32Scale x := by
  unfold f32Scale
  split_ifs with h
  · exact le_rfl
  · exact Nat.one_le_iff_ne_zero.mpr h

/-! The rounded product. -/

/-- How far a magnitude stands from the exact product of two magnitudes, in units of 2^−298 (R185). -/
def productDistance (x y : Word) (b : Nat) : Int :=
  |(magValue b : Int) * 2 ^ 149 - magValue (f32Mag x) * magValue (f32Mag y)|

theorem f32MulBits_le (x y : Word) : f32MulBits x y ≤ f32InfBits := f32Round_le _ _

section Finite

variable {x y : Word} (hx : isFiniteNonzero x = true) (hy : isFiniteNonzero y = true)

include hx hy

/-- No magnitude is nearer to the exact product than the rounded one, which is even where another is as near (R185). -/
theorem f32MulBits_nearest {b : Nat} (hb : b ≤ f32InfBits) :
    productDistance x y (f32MulBits x y) ≤ productDistance x y b ∧
      (productDistance x y (f32MulBits x y) = productDistance x y b → b ≠ f32MulBits x y → f32MulBits x y % 2 = 0) := by
  have hsx := f32Scale_pos x
  have hsy := f32Scale_pos y
  have hX := magValue_pos ((isFiniteNonzero_iff_mag x).mp hx).1
  have hY := magValue_pos ((isFiniteNonzero_iff_mag y).mp hy).1
  rw [magValue_mag] at hX hY
  have hm : 0 < f32Significand x * f32Significand y :=
    Nat.mul_pos (Nat.pos_of_mul_pos_right hX) (Nat.pos_of_mul_pos_right hY)
  have hproduct : ((f32Significand x * f32Significand y : Nat) : Int) * 2 ^ (f32Scale x + f32Scale y - 2) =
      magValue (f32Mag x) * magValue (f32Mag y) := by
    rw [magValue_mag, magValue_mag, show f32Scale x + f32Scale y - 2 = (f32Scale x - 1) + (f32Scale y - 1) by omega, pow_add]
    push_cast
    ring
  have hnear := f32Round_nearest _ (f32Scale x + f32Scale y) b hm (by omega) hb
  rw [hproduct] at hnear
  exact hnear.imp_right fun h heq hne => h heq (magValue_strictMono.injective.ne hne)

/-- The rounded product is infinity exactly from the bound on. The bound is halfway between 0x7F7FFFFF and 2^128, and there
the odd 0x7F7FFFFF loses the tie (R186). -/
theorem f32MulBits_eq_infinity_iff :
    f32MulBits x y = f32InfBits ↔ (2 ^ 25 - 1) * 2 ^ 401 ≤ (magValue (f32Mag x) * magValue (f32Mag y) : Int) := by
  have hunit : (2 : Int) ^ 401 = 2 ^ 252 * 2 ^ 149 := by rw [← pow_add]
  have hInf : (magValue f32InfBits : Int) * 2 ^ 149 = 2 ^ 25 * 2 ^ 401 := by
    rw [magValue_infinity, hunit]
    norm_num
  have hMax : (magValue 0x7F7FFFFF : Int) * 2 ^ 149 = (2 ^ 25 - 2) * 2 ^ 401 := by
    rw [magValue_maxFinite, hunit]
    norm_num
  have hpos : (0 : Int) < 2 ^ 401 := by positivity
  have hnear {b : Nat} (hb : b ≤ f32InfBits) := f32MulBits_nearest hx hy hb
  have hle := f32MulBits_le x y
  unfold productDistance at hnear
  generalize f32MulBits x y = r at *
  generalize (magValue (f32Mag x) * magValue (f32Mag y) : Int) = p at *
  generalize (2 : Int) ^ 401 = u at *
  constructor
  · rintro rfl
    have hmax := (hnear (b := 0x7F7FFFFF) (by decide)).1
    rw [hInf, hMax] at hmax
    by_contra hbelow
    rw [abs_of_nonneg (by linarith)] at hmax
    rcases abs_cases ((2 ^ 25 - 2) * u - p) with ⟨h, -⟩ | ⟨h, -⟩ <;> linarith
  · intro hbound
    by_contra hne
    obtain ⟨hnearer, htie⟩ := hnear le_rfl
    rw [hInf] at hnearer htie
    have hmax : |2 ^ 25 * u - p| ≤ p - (2 ^ 25 - 2) * u := abs_le.mpr ⟨by linarith, by linarith⟩
    have hr : r ≤ 0x7F7FFFFF := Nat.le_of_lt_succ (lt_of_le_of_ne hle hne)
    rcases hr.lt_or_eq with hlt | rfl
    · have hvalue : (magValue r : Int) < magValue 0x7F7FFFFF := by exact_mod_cast magValue_strictMono hlt
      rw [abs_of_nonpos (by linarith)] at hnearer
      linarith
    · rw [hMax, abs_of_nonpos (by linarith)] at hnearer htie
      exact absurd (htie (by linarith) (by decide)) (by decide)

end Finite

/-- A product by 1.0 is exact, so the rounding agrees with the bypass (R180). -/
theorem f32MulBits_one {x : Word} (hx : isFiniteNonzero x = true) : f32MulBits x f32One = f32Mag x := by
  have hmax := ((isFiniteNonzero_iff_mag x).mp hx).2
  have hnear := (f32MulBits_nearest hx (y := f32One) (by decide) hmax.le).1
  simp only [productDistance, magValue_one, Nat.cast_pow, Nat.cast_ofNat, sub_self, abs_zero, abs_nonpos_iff,
    sub_eq_zero] at hnear
  exact magValue_strictMono.injective (Int.ofNat.inj (Int.eq_of_mul_eq_mul_right (by positivity) hnear))

theorem fmul32_finite {x y : Word} (hx : isFiniteNonzero x = true) (hy : isFiniteNonzero y = true) :
    fmul32 x y = f32Pack (f32Sign x ^^ f32Sign y) (f32MulBits x y) := by
  refine fmul32_eq_pack (fun hone => hone ▸ (f32MulBits_one hx).symm) fun hone => ?_
  rw [isFiniteNonzero_iff_mag] at hx hy
  rw [fmul32_of_not_nan hone (by omega) (by omega), if_neg (by omega), if_neg (by omega), if_neg (by omega)]

theorem f32Mag_mulBits (s : Bool) (x y : Word) : f32Mag (f32Pack s (f32MulBits x y)) = f32MulBits x y :=
  f32Pack_mag s _ ((f32MulBits_le x y).trans_lt (by decide))

/-! Signed values. -/

theorem abs_f32Value (x : Word) : |f32Value x| = magValue (f32Mag x) := by
  rw [f32Value_mag]
  split_ifs <;> simp

theorem f32Value_ne_zero {x : Word} (hx : isFiniteNonzero x = true) : f32Value x ≠ 0 := by
  rw [← abs_pos, abs_f32Value]
  exact_mod_cast magValue_pos ((isFiniteNonzero_iff_mag x).mp hx).1

/-- The signed value of an encoding stands at least as far from the product as the magnitudes do. -/
theorem productDistance_le (x y z : Word) :
    productDistance x y (f32Mag z) ≤ |f32Value z * 2 ^ 149 - f32Value x * f32Value y| := by
  have h := abs_abs_sub_abs_le (f32Value z * 2 ^ 149) (f32Value x * f32Value y)
  rwa [abs_mul, abs_mul, abs_f32Value, abs_f32Value, abs_f32Value, abs_pow, Nat.abs_ofNat] at h

theorem signFactor_xor : ∀ a b : Bool, (if a ^^ b then -1 else 1 : Int) = (if a then -1 else 1) * (if b then -1 else 1) := by
  decide

/-- With the sign of the product it stands just as far. -/
theorem abs_sub_eq_productDistance {x y r : Word} (hsign : f32Sign r = (f32Sign x ^^ f32Sign y)) :
    |f32Value r * 2 ^ 149 - f32Value x * f32Value y| = productDistance x y (f32Mag r) := by
  have hfactor : f32Value r * 2 ^ 149 - f32Value x * f32Value y = (if f32Sign x ^^ f32Sign y then -1 else 1) *
      ((magValue (f32Mag r) : Int) * 2 ^ 149 - magValue (f32Mag x) * magValue (f32Mag y)) := by
    rw [f32Value_mag r, f32Value_mag x, f32Value_mag y, hsign, signFactor_xor]
    ring
  rw [hfactor, abs_mul, productDistance]
  split_ifs <;> simp

/-- Two values of one magnitude that are as near to a product other than 0 are the same: opposite ones are not as near. -/
theorem f32Value_eq_of_equally_near {r z : Word} {p : Int} (hmag : f32Mag z = f32Mag r) (hp : p ≠ 0)
    (heq : |f32Value r * 2 ^ 149 - p| = |f32Value z * 2 ^ 149 - p|) : f32Value z = f32Value r := by
  have habs : |f32Value z| = |f32Value r| := by rw [abs_f32Value, abs_f32Value, hmag]
  rcases abs_eq_abs.mp habs with hsame | hopposite
  · exact hsame
  · rw [hopposite, abs_eq_abs] at heq
    omega

/-- Settles O46: the result's distance from the product is that of the magnitudes, where it is the least, and a candidate of
either sign is at least as far as its magnitude. -/
theorem multiplierRoundsToTheNearestEven : Obligations.MultiplierRoundsToTheNearestEven := by
  intro x y hx hy
  simp only [fmul32_finite hx hy]
  generalize hr : f32Pack (f32Sign x ^^ f32Sign y) (f32MulBits x y) = r
  have hmag : f32Mag r = f32MulBits x y := hr ▸ f32Mag_mulBits _ x y
  have hsign : f32Sign r = (f32Sign x ^^ f32Sign y) := hr ▸ f32Pack_sign _ _
  refine ⟨?notNaN, hsign, fun z hz => ?_⟩
  case notNaN =>
    rw [isNaN_mag, hmag]
    exact decide_eq_false (f32MulBits_le x y).not_gt
  rw [abs_sub_eq_productDistance hsign, hmag]
  rw [isNaN_mag, decide_eq_false_iff_not, not_lt] at hz
  obtain ⟨hnearer, htie⟩ := f32MulBits_nearest hx hy hz
  have hle := productDistance_le x y z
  refine ⟨hnearer.trans hle, fun heq hne => ?_⟩
  have heven : f32MulBits x y % 2 = 0 := by
    refine htie (hnearer.antisymm (hle.trans heq.ge)) fun hsame => hne ?_
    rw [← hmag, ← abs_sub_eq_productDistance hsign] at heq
    exact f32Value_eq_of_equally_near (hsame.trans hmag.symm) (mul_ne_zero (f32Value_ne_zero hx) (f32Value_ne_zero hy)) heq
  rw [← hr, f32Pack_bit0, heven]
  rfl

theorem f32Mag_eq_extractLsb' (x : Word) : f32Mag x = (x.extractLsb' 0 31).toNat := by
  rw [f32Mag, BitVec.extractLsb'_toNat, Nat.shiftRight_zero]

/-- Settles O47: the magnitude is infinity from the bound on, and one below the bound is no infinity. -/
theorem multiplierOverflowsAtTheBound : Obligations.MultiplierOverflowsAtTheBound := by
  refine ⟨fun x y hx hy => ?_, fmul32_one _, by decide⟩
  rw [abs_mul, abs_f32Value, abs_f32Value, ← not_le, ← f32MulBits_eq_infinity_iff hx hy, fmul32_finite hx hy]
  refine ⟨fun hinf => ?_, fun hfinite => ?_⟩
  · rw [hinf]
    cases f32Sign x ^^ f32Sign y
    · exact .inl rfl
    · exact .inr rfl
  · rw [BitVec.le_def, ← f32Mag_eq_extractLsb', f32Mag_mulBits]
    exact Nat.le_of_lt_succ (lt_of_le_of_ne (f32MulBits_le x y) hfinite)

end Sys2Proof.Proofs
end

section
/-! SUPPORT. The fixed-point scaler as the exact floor, its shift corners and its sign (R190 to R195). -/

namespace Sys2Proof.Proofs

open Sys2Proof.Machine Sys2Proof.Laws

/-- P and its opposite fit a signed 32-bit value (R191). -/
theorem abs_fxProduct_lt (r m : Half) : |fxProduct r m| < 2 ^ 31 := by
  have hr : (r.toNat : Int) ≤ 65535 := Int.ofNat_le.mpr (Nat.le_of_lt_succ r.isLt)
  have hm : |m.toInt| ≤ 32768 := abs_le.mpr ⟨m.le_toInt, m.toInt_lt.le.trans (by decide)⟩
  calc
    |fxProduct r m| = r.toNat * |m.toInt| := by rw [fxProduct, abs_mul, Nat.abs_cast]
    _ ≤ 65535 * 32768 := mul_le_mul hr hm (abs_nonneg _) (by decide)
    _ < 2 ^ 31 := by decide

/-- The shifted product loses no bit in the 32-bit result, because a quotient is no larger than P (R191). -/
theorem fxscale_toInt (r m : Half) (s : BitVec 5) : (fxscale r m s).toInt = fxProduct r m / 2 ^ s.toNat := by
  obtain ⟨hlow, hhigh⟩ := abs_lt.mp ((Int.abs_ediv_le_abs (fxProduct r m) (2 ^ s.toNat)).trans_lt (abs_fxProduct_lt r m))
  exact BitVec.toInt_ofInt_eq_self (by decide) hlow.le hhigh

/-- A shift by 31 leaves nothing of P but its sign (R193). -/
theorem fxProduct_ediv_two_pow_31 (r m : Half) : fxProduct r m / 2 ^ 31 = if 0 ≤ fxProduct r m then 0 else -1 := by
  obtain ⟨hlow, hhigh⟩ := abs_lt.mp (abs_fxProduct_lt r m)
  split_ifs with hsign
  · exact Int.ediv_eq_zero_of_lt hsign hhigh
  · omega

theorem fxProduct_eq_zero {r m : Half} (h : m = 0 ∨ r = 0) : fxProduct r m = 0 := by
  obtain rfl | rfl := h
  · exact mul_zero _
  · exact zero_mul _

theorem fxProduct_neg_iff (r m : Half) : fxProduct r m < 0 ↔ m.toInt < 0 ∧ 0 < r.toNat := by
  rw [fxProduct, mul_neg_iff]
  omega

/-- Settles O41: the result is the integer quotient of P, which is the floor of the rational one. -/
theorem scalerIsTheExactFloor : Obligations.ScalerIsTheExactFloor := by
  intro r m s
  calc
    (fxscale r m s).toInt = fxProduct r m / ((2 ^ s.toNat : Nat) : Int) := by
      rw [fxscale_toInt, Nat.cast_pow, Nat.cast_ofNat]
    _ = ⌊(fxProduct r m : ℚ) / ((2 ^ s.toNat : Nat) : ℚ)⌋ := (Rat.floor_intCast_div_natCast _ _).symm
    _ = ⌊((r.toNat : ℚ) * (m.toInt : ℚ)) / 2 ^ s.toNat⌋ := by
      simp only [fxProduct, Int.cast_mul, Int.cast_natCast, Nat.cast_pow, Nat.cast_ofNat]

/-- Settles O42: each corner is the quotient of P at that shift or at P = 0, and a division by a power of 2 keeps the sign. -/
theorem scalerCornersAndSign : Obligations.ScalerCornersAndSign := by
  intro r m s
  refine ⟨?noShift, ?signShift, fun hzero => ?zero, ?sign⟩
  case noShift => exact (fxscale_toInt r m 0).trans (Int.ediv_one _)
  case signShift => exact (congrArg (BitVec.ofInt 32) (fxProduct_ediv_two_pow_31 r m)).trans (apply_ite _ _ _ _)
  case zero =>
    rw [fxscale, fxProduct_eq_zero hzero, Int.zero_ediv]
    rfl
  case sign => rw [fxscale_toInt, Int.ediv_lt_iff_lt_mul (by positivity), zero_mul, fxProduct_neg_iff]

/-- Settles O22: the command's body is the scaling, and the corner cases are those of R195. -/
theorem scaleCommandWritesTheScaledValue : Obligations.ScaleCommandWritesTheScaledValue :=
  ⟨fun s => exec_command .scale s rfl, by decide⟩

end Sys2Proof.Proofs
end

section
/-! SUPPORT. The sticky flags OVERRUN and BUSYWR: no turn but a reset and a STATUS write of 1 to the flag's own bit takes a set
flag away (R37, R38, R209). -/

namespace Sys2Proof.Proofs

open Sys2Proof.Machine Sys2Proof.Laws

/-- A sticky flag that is set in one state is set in the other too. -/
structure KeepsSticky (s t : State) : Prop where
  overrun : s.status.overrun = true → t.status.overrun = true
  busyWr : s.status.busyWr = true → t.status.busyWr = true

theorem keepsSticky_of_eq {s t : State} (hoverrun : t.status.overrun = s.status.overrun)
    (hbusyWr : t.status.busyWr = s.status.busyWr) : KeepsSticky s t :=
  ⟨hoverrun.trans, hbusyWr.trans⟩

/-- The turns to come are no sticky flag. -/
theorem KeepsSticky.of_withSched {s t : State} {rest : List Turn} (h : KeepsSticky { s with sched := rest } t) :
    KeepsSticky s t :=
  ⟨h.overrun, h.busyWr⟩

/-- The completion of a command writes neither W1C bit (R113). -/
theorem keepsSticky_complete_commandBody (i : Instr) (s : State) : KeepsSticky s (complete (commandBody i s)) := by
  obtain ⟨f, m, r, c, hbody⟩ := commandBody_frame i s
  apply keepsSticky_of_eq <;> rw [complete_status, hbody]

theorem keepsSticky_busRead (s : State) (addr : Nat) : KeepsSticky s (s.busRead addr) := by
  obtain ⟨r, hread⟩ := busRead_frame s addr
  apply keepsSticky_of_eq <;> rw [hread]

/-- A write to any location but STATUS stores, starts a command or sets a sticky flag, so it clears none (R65, R112, R116,
R117). -/
theorem keepsSticky_writeLoc (s : State) (v : Word) {l : Loc} (hl : l ≠ .status) : KeepsSticky s (s.writeLoc v l) := by
  obtain hw | ⟨-, -, hw⟩ | ⟨-, -, hw⟩ | ⟨-, -, hw⟩ | ⟨-, -, hw⟩ | ⟨hstatus, -⟩ := writeLoc_cases s v l
  · rw [hw]
    exact keepsSticky_of_eq rfl rfl
  · obtain ⟨inputs, tables, hstore⟩ := store_frame s v l
    rw [hw, hstore]
    exact keepsSticky_of_eq rfl rfl
  · rw [hw]
    exact keepsSticky_of_eq rfl rfl
  · rw [hw]
    exact ⟨fun _ => rfl, id⟩
  · rw [hw]
    exact ⟨id, fun _ => rfl⟩
  · exact absurd hstatus hl

/-- A bus write keeps the sticky flags or is a write to STATUS (R32, R119). -/
theorem busWrite_keepsSticky_or_writesStatus (s : State) (addr : Nat) (v : Word) :
    KeepsSticky s (s.busWrite addr v) ∨ locateAddr addr = some .status ∧ s.busWrite addr v = s.writeStatus v := by
  obtain hw | ⟨l, hl, hw⟩ := busWrite_cases s addr v
  · rw [hw]
    exact .inl (keepsSticky_of_eq rfl rfl)
  · by_cases hstatus : l = .status
    · subst hstatus
      exact .inr ⟨hl, hw⟩
    · rw [hw]
      exact .inl (keepsSticky_writeLoc s v hstatus)

/-- Every step but a reset keeps the sticky flags or is a write turn to STATUS (R209). -/
theorem step_keepsSticky_or_writesStatus {s t : State} (hstep : step s = .next t)
    (hreset : ∀ rest, s.sched ≠ .reset :: rest) :
    KeepsSticky s t ∨ ∃ addr v rest, s.sched = .write addr v :: rest ∧ locateAddr addr = some .status ∧
      t = State.writeStatus v { s with sched := rest } := by
  obtain ⟨rest, -, -, rfl⟩ | ⟨rest, -, -, rfl⟩ | ⟨addr, rest, -, rfl⟩ | ⟨addr, v, rest, hsched, rfl⟩ |
    ⟨rest, hsched, -⟩ := step_cases s t hstep
  · exact .inl (keepsSticky_complete_commandBody s.command _).of_withSched
  · exact .inl (keepsSticky_of_eq rfl rfl)
  · exact .inl (keepsSticky_busRead _ addr).of_withSched
  · obtain hkeeps | ⟨hl, hw⟩ := busWrite_keepsSticky_or_writesStatus { s with sched := rest } addr v
    · exact .inl hkeeps.of_withSched
    · exact .inr ⟨addr, v, rest, hsched, hl, hw⟩
  · exact absurd hsched (hreset rest)

/-- A set flag that a W1C write cleared was written 1 (R32). -/
theorem written_of_cleared {flag written : Bool} (hset : flag = true) (hclear : (flag && !written) = false) :
    written = true := by
  rwa [hset, Bool.true_and, Bool.not_eq_false'] at hclear

/-- Settles O10: a step that keeps both flags clears none, and a STATUS write clears a flag by a 1 in its bit alone. -/
theorem stickyFlagsStayUntilWrittenOne : Obligations.StickyFlagsStayUntilWrittenOne := by
  intro s t hstep hreset
  obtain ⟨hoverrun, hbusyWr⟩ | ⟨addr, v, rest, hsched, hl, rfl⟩ := step_keepsSticky_or_writesStatus hstep hreset
  · exact ⟨fun hset hclear => absurd (hoverrun hset) (by simp [hclear]),
      fun hset hclear => absurd (hbusyWr hset) (by simp [hclear])⟩
  · exact ⟨fun hset hclear => ⟨addr, v, rest, hsched, hl, written_of_cleared hset hclear⟩,
      fun hset hclear => ⟨addr, v, rest, hsched, hl, written_of_cleared hset hclear⟩⟩

end Sys2Proof.Proofs
end

section
/-! SUPPORT. What the reset table gives (R225), and that a running command comes to its completion (R123, R234). -/

namespace Sys2Proof.Proofs

open Sys2Proof.Machine Sys2Proof.Laws

/-! Reset. -/

/-- STATUS reads 0 when every stored field is 0 and the engine is IDLE (R228). -/
theorem statusWord_eq_zero {s : State} (hstatus : s.status = ⟨false, .ok, 0, false, false⟩)
    (hidle : s.engine.state = .idle) : s.statusWord = 0 := by
  rw [State.statusWord, isBusy_eq, hstatus, hidle]
  decide

theorem frame0_zero_word : Frame0.zero.word = 0 := by decide

theorem frame1_cleared_word : (Frame1.cleared false).word = 0 := by decide

theorem mapping_cleared_infoWord : Mapping.cleared.info.word = 0 := by decide

theorem mapping_cleared_slotWord (k : Fin 256) : Mapping.cleared.slotInfo[k].word = 0 := by
  rw [mapping_cleared_slotInfo, Fin.getElem_fin, getElem_fill]
  decide

theorem drawn_unit_invalid (epoch u : Nat) (h : u < 256) : (Tables.drawn epoch).ut[u].valid = false := by
  rw [Tables.drawn, getElem_tabulate]

theorem drawn_function_invalid (epoch k : Nat) (h : k < 64) : (Tables.drawn epoch).mt[k].valid = false := by
  rw [Tables.drawn, getElem_tabulate]

/-- A reset gives the whole table, whatever turns are still to come and whatever word was read last: neither is the block's
(log 2, log 6). -/
theorem atReset_resetAt (epoch : Nat) (sched : List Turn) (rdata : Word) :
    ({ State.resetAt epoch with sched := sched, rdata := rdata } : State).AtReset where
  engine := rfl
  cursor := rfl
  status := statusWord_eq_zero rfl rfl
  flen := rfl
  args := ⟨rfl, rfl, rfl⟩
  result := rfl
  frame0 := frame0_zero_word
  frame1 := frame1_cleared_word
  regs := getElem_fill 128 0
  mapInfo := mapping_cleared_infoWord
  value := getElem_fill 256 0
  slotInfo := mapping_cleared_slotWord
  units := drawn_unit_invalid epoch
  functions := drawn_function_invalid epoch

/-- Settles O1: the first reset and a reset turn both give the table, for whatever number of resets before. -/
theorem resetGivesTheTableValues : Obligations.ResetGivesTheTableValues :=
  ⟨atReset_resetAt 0 [] 0, fun s rest hsched =>
    ⟨_, step_reset hsched, atReset_resetAt (s.epoch + 1) rest s.rdata⟩⟩

/-- Settles O2: the state after the first reset is the state right after reset number 0. -/
theorem resetMeetsTheInvariant : Obligations.ResetMeetsTheInvariant := inv_resetAt 0

/-! Completion. -/

/-- A command with the given opcode has completed: the engine is IDLE, DONE is 1 and LAST_OP is the opcode (R113). -/
structure Completes (op : Byte) (t : State) : Prop where
  idle : t.engine.state = .idle
  done : t.status.done = true
  lastOp : t.status.lastOp = op

/-- No command's body changes the latched opcode, so the completion puts it into LAST_OP (R36). -/
theorem completes_commandBody (i : Instr) (s : State) : Completes s.engine.op (complete (commandBody i s)) where
  idle := rfl
  done := rfl
  lastOp := by
    obtain ⟨f, m, r, c, hbody⟩ := commandBody_frame i s
    rw [complete_status, hbody]

/-- While BUSY the engine's turn completes the latched command (R113). -/
theorem engineStep_completes {s : State} (hbusy : s.engine.state = .busy) :
    ∃ t, engineStep s = .next t ∧ Completes s.engine.op t :=
  ⟨_, (engineStep_busy hbusy).trans (exec_command _ s (command_format s)), completes_commandBody s.command s⟩

/-- While BUSY a step with a host turn leaves the engine as it is and takes the turn (R76). -/
theorem step_hostTurn_keeps_engine {s : State} {turn : Turn} {rest : List Turn} (hbusy : s.engine.state = .busy)
    (hsched : s.sched = turn :: rest) (hengine : turn ≠ .engine) (hreset : turn ≠ .reset) :
    ∃ t, step s = .next t ∧ t.engine = s.engine ∧ t.sched = rest := by
  obtain ⟨t, hstep⟩ := step_total s
  obtain ⟨o, b, r, rfl⟩ := step_hostTurn_busy hbusy hsched hengine hreset hstep
  exact ⟨_, hstep, rfl, rfl⟩

/-- A run goes on from the state that its first step answers. -/
theorem run_succ {s t : State} (h : step s = .next t) (k : Nat) : core.run (k + 1) s = core.run k t := by
  simp only [Host.Core.run, core, h]

/-- The run to the completion, over the turns to come: the next one is the engine's, which completes the command, or the
host's, which keeps it running; with none left the engine has its turn. -/
theorem run_completes (turns : List Turn) {s : State} (hsched : s.sched = turns) (hbusy : s.engine.state = .busy)
    (hreset : .reset ∉ turns) :
    ∃ k t, k ≤ turns.length + 1 ∧ core.run k s = .next t ∧ Completes s.engine.op t := by
  induction turns generalizing s with
  | nil =>
    obtain ⟨t, hturn, ht⟩ := engineStep_completes hbusy
    exact ⟨1, t, le_rfl, run_succ ((step_nil hsched).trans hturn) 0, ht⟩
  | cons turn rest ih =>
    by_cases hengine : turn = .engine
    · subst hengine
      obtain ⟨t, hturn, ht⟩ := engineStep_completes (s := { s with sched := rest }) hbusy
      exact ⟨1, t, Nat.le_add_left 1 _, run_succ ((step_engine hsched).trans hturn) 0, ht⟩
    · have hhead : turn ≠ .reset := (List.ne_of_not_mem_cons hreset).symm
      obtain ⟨s', hstep, hkept, hrest⟩ := step_hostTurn_keeps_engine hbusy hsched hengine hhead
      obtain ⟨k, t, hk, hrun, ht⟩ := ih hrest (hkept ▸ hbusy) (List.not_mem_of_not_mem_cons hreset)
      exact ⟨k + 1, t, Nat.succ_le_succ hk, (run_succ hstep k).trans hrun, hkept ▸ ht⟩

/-- Settles O7, by the run over the turns of the schedule. -/
theorem acceptedCommandCompletes : Obligations.AcceptedCommandCompletes := by
  intro s hbusy hreset
  obtain ⟨k, t, hk, hrun, ht⟩ := run_completes s.sched rfl hbusy hreset
  exact ⟨k, t, hk, hrun, ht.idle, ht.done, ht.lastOp⟩

end Sys2Proof.Proofs
end

section
/-! SUPPORT. The product of two infinities, the case of the multiplier that no rule of R180 to R187 names (log 7). -/

namespace Sys2Proof.Proofs

open Sys2Proof.Machine Sys2Proof.Laws

/-- An infinity is not 1.0, so the bypass of R180 leaves it to the later tests. -/
theorem ne_f32One_of_isInf {y : Word} (hy : isInf y = true) : y ≠ f32One := by
  rintro rfl
  exact absurd hy (by decide)

/-- Neither infinity is a NaN, and the invalid case of R182 needs a zero, so the test for an infinity is the one met. -/
theorem fmul32_infinities {x y : Word} (hx : isInf x = true) (hy : isInf y = true) :
    fmul32 x y = f32Pack (f32Sign x ^^ f32Sign y) f32InfBits := by
  have hone := ne_f32One_of_isInf hy
  have hpos := f32InfBits_pos
  rw [isInf_mag, decide_eq_true_eq] at hx hy
  rw [fmul32_of_not_nan hone hx.le hy.le, if_neg (by omega), if_pos (.inl hx)]

/-- Settles O45: the product is the packed infinity, whose fields are those of the statement. -/
theorem infinityByInfinityIsInfinity : Obligations.InfinityByInfinityIsInfinity :=
  fun _ _ hx hy => (fmul32_infinities hx hy).trans (f32Pack_infinity _)

end Sys2Proof.Proofs
end
